-- ==== Sys2Proof/Word.lean ====
section
/-! DEFINITION. The word type of LC3-CORE and the narrow bit fields that index its state (rules R4, R6, R7). -/

namespace Sys2Proof

/-- A register, a memory cell, an address, an instruction: 16 bits, bit 15 the most significant (R4, R6, R7).
Addition on `Word` is addition modulo 65536, which is the spec's `trunc16`. -/
abbrev Word := BitVec 16

/-- The 3-bit index of a general register, 0 to 7 (R11). -/
abbrev RegIndex := BitVec 3

/-- The 8-bit number of a TRAP vector, 0 to 255 (R20, R100). -/
abbrev TrapVector := BitVec 8

end Sys2Proof
end

