-- ==== Sys2Proof/Syntax.lean ====
section
/-! DEFINITION. The instructions: one constructor for each of the 19 rows of spec/opcode_table.json, with the operands
the decoder of rule R53 delivers. -/

namespace Sys2Proof

/-- The decoder's output (R53): a tag and its operands. An immediate or an offset is held as the 16-bit operand the
decoder makes of it, that is already sign-extended (R47). Bits no field covers are not operands and are not held (R48). -/
inductive Instr where
  /-- BR: `mask` is `n ++ z ++ p`, the bits `w[11:9]` (R46, R91). -/
  | br (mask : BitVec 3) (off : Word)
  /-- ADD, register form (R71). -/
  | addReg (dst src1 src2 : RegIndex)
  /-- ADD, immediate form (R72). -/
  | addImm (dst src1 : RegIndex) (imm : Word)
  /-- LD (R81). -/
  | ld (dst : RegIndex) (off : Word)
  /-- ST (R85). -/
  | st (src : RegIndex) (off : Word)
  /-- JSRR, the source's "JSR-register" (R94, R95). -/
  | jsrr (base : RegIndex)
  /-- JSR (R93). -/
  | jsr (off : Word)
  /-- AND, register form (R73). -/
  | andReg (dst src1 src2 : RegIndex)
  /-- AND, immediate form (R74). -/
  | andImm (dst src1 : RegIndex) (imm : Word)
  /-- LDR (R83). -/
  | ldr (dst base : RegIndex) (off : Word)
  /-- STR (R87). -/
  | str (src base : RegIndex) (off : Word)
  /-- RTI: a recognized tag with no operation in the core (R103). -/
  | rti
  /-- NOT (R75). -/
  | not (dst src : RegIndex)
  /-- LDI (R82). -/
  | ldi (dst : RegIndex) (off : Word)
  /-- STI (R86). -/
  | sti (src : RegIndex) (off : Word)
  /-- JMP; RET is JMP with base 7 and no case of its own (R92). -/
  | jmp (base : RegIndex)
  /-- The decoder's "unimplemented" tag: the opcode value `1101`, the table's row RESERVED (R51, R104). -/
  | reserved
  /-- LEA (R84). -/
  | lea (dst : RegIndex) (off : Word)
  /-- TRAP (R100). -/
  | trap (vector : TrapVector)
  deriving DecidableEq, Repr

end Sys2Proof
end

