-- ==== Sys2Proof/WellFormed.lean ====
section
/-! DEFINITION. Which instructions have an encoding with their operands in range (rules R47 and R59). -/

namespace Sys2Proof

/-- `v`, read as a signed number, fits an `n`-bit signed field: the range column of R47. -/
def fitsSigned (n : Nat) (v : Word) : Bool :=
  decide (-(2 ^ (n - 1) : Int) ≤ v.toInt) && decide (v.toInt < (2 ^ (n - 1) : Int))

/-- An instruction is well-formed when its immediate or offset is in the range R47 gives its field ("an immediate must
be in the range of rule R47", R59). Register indices, masks and vectors are in range by their types. -/
def Instr.wf : Instr → Bool
  | .br _ off => fitsSigned 9 off
  | .addReg _ _ _ => true
  | .addImm _ _ imm => fitsSigned 5 imm
  | .ld _ off => fitsSigned 9 off
  | .st _ off => fitsSigned 9 off
  | .jsrr _ => true
  | .jsr off => fitsSigned 11 off
  | .andReg _ _ _ => true
  | .andImm _ _ imm => fitsSigned 5 imm
  | .ldr _ _ off => fitsSigned 6 off
  | .str _ _ off => fitsSigned 6 off
  | .rti => true
  | .not _ _ => true
  | .ldi _ off => fitsSigned 9 off
  | .sti _ off => fitsSigned 9 off
  | .jmp _ => true
  | .reserved => true
  | .lea _ off => fitsSigned 9 off
  | .trap _ => true

end Sys2Proof
end

