-- ==== Sys2Proof/Decode.lean ====
section
/-! DEFINITION. The decoder (rule R53), the canonical encoder (rule R59) and the bit-field and sign-extension helpers
they use. -/

namespace Sys2Proof

/-- `w[lo+len-1 : lo]`, a field cut out by mask and shift (R6, R42). -/
def field (w : Word) (lo len : Nat) : BitVec len := w.extractLsb' lo len

/-- `sext_N`: the 16-bit operand of an `n`-bit signed field (R8). -/
def sext {n : Nat} (f : BitVec n) : Word := f.signExtend 16

/-- `lowN`: the low `n` bits of an operand, the encoder's inverse of `sext` (R59). -/
def low (n : Nat) (v : Word) : BitVec n := v.setWidth n

/-- `decode(w)` of R53: a pure function, total over the 65536 words (R42). The four Booleans are `w[15]`, `w[14]`,
`w[13]`, `w[12]`, so each arm reads as the opcode column of R50; the two mode bits are `w[5]` and `w[11]` (R45).
The opcode `1101` is rejected by name: its tag is `.reserved` (R51). -/
def decode (w : Word) : Instr :=
  match w.getLsbD 15, w.getLsbD 14, w.getLsbD 13, w.getLsbD 12 with
  | false, false, false, false => .br (field w 9 3) (sext (field w 0 9))
  | false, false, false, true =>
    if w.getLsbD 5 then .addImm (field w 9 3) (field w 6 3) (sext (field w 0 5))
    else .addReg (field w 9 3) (field w 6 3) (field w 0 3)
  | false, false, true, false => .ld (field w 9 3) (sext (field w 0 9))
  | false, false, true, true => .st (field w 9 3) (sext (field w 0 9))
  | false, true, false, false =>
    if w.getLsbD 11 then .jsr (sext (field w 0 11))
    else .jsrr (field w 6 3)
  | false, true, false, true =>
    if w.getLsbD 5 then .andImm (field w 9 3) (field w 6 3) (sext (field w 0 5))
    else .andReg (field w 9 3) (field w 6 3) (field w 0 3)
  | false, true, true, false => .ldr (field w 9 3) (field w 6 3) (sext (field w 0 6))
  | false, true, true, true => .str (field w 9 3) (field w 6 3) (sext (field w 0 6))
  | true, false, false, false => .rti
  | true, false, false, true => .not (field w 9 3) (field w 6 3)
  | true, false, true, false => .ldi (field w 9 3) (sext (field w 0 9))
  | true, false, true, true => .sti (field w 9 3) (sext (field w 0 9))
  | true, true, false, false => .jmp (field w 6 3)
  | true, true, false, true => .reserved
  | true, true, true, false => .lea (field w 9 3) (sext (field w 0 9))
  | true, true, true, true => .trap (field w 0 8)

/-- A field put back at its position in the word, zeros elsewhere (R54). -/
def placed {n : Nat} (f : BitVec n) (lo : Nat) : Word := f.setWidth 16 <<< lo

/-- The canonical encoder of R59: the constant of the row, which holds the opcode, the mode bit and the canonical
values of the ignored bits (R48), with the fields placed where R44 puts them. The unimplemented tag has no encoder
("not an instruction, no encoder"): `none`. -/
def encode : Instr → Option Word
  | .br mask off => some (0x0000 ||| placed mask 9 ||| placed (low 9 off) 0)
  | .addReg dst src1 src2 => some (0x1000 ||| placed dst 9 ||| placed src1 6 ||| placed src2 0)
  | .addImm dst src1 imm => some (0x1020 ||| placed dst 9 ||| placed src1 6 ||| placed (low 5 imm) 0)
  | .ld dst off => some (0x2000 ||| placed dst 9 ||| placed (low 9 off) 0)
  | .st src off => some (0x3000 ||| placed src 9 ||| placed (low 9 off) 0)
  | .jsrr base => some (0x4000 ||| placed base 6)
  | .jsr off => some (0x4800 ||| placed (low 11 off) 0)
  | .andReg dst src1 src2 => some (0x5000 ||| placed dst 9 ||| placed src1 6 ||| placed src2 0)
  | .andImm dst src1 imm => some (0x5020 ||| placed dst 9 ||| placed src1 6 ||| placed (low 5 imm) 0)
  | .ldr dst base off => some (0x6000 ||| placed dst 9 ||| placed base 6 ||| placed (low 6 off) 0)
  | .str src base off => some (0x7000 ||| placed src 9 ||| placed base 6 ||| placed (low 6 off) 0)
  | .rti => some 0x8000
  | .not dst src => some (0x903F ||| placed dst 9 ||| placed src 6)
  | .ldi dst off => some (0xA000 ||| placed dst 9 ||| placed (low 9 off) 0)
  | .sti src off => some (0xB000 ||| placed src 9 ||| placed (low 9 off) 0)
  | .jmp base => some (0xC000 ||| placed base 6)
  | .reserved => none
  | .lea dst off => some (0xE000 ||| placed dst 9 ||| placed (low 9 off) 0)
  | .trap vector => some (0xF000 ||| placed vector 0)

/-- A word with its ignored bits (R48) set to the canonical values R48 names, field bits untouched: what R54 says
`encode (decode w)` gives back. -/
def canonicalWord (w : Word) : Word :=
  match w.getLsbD 15, w.getLsbD 14, w.getLsbD 13, w.getLsbD 12 with
  | false, _, false, true => if w.getLsbD 5 then w else w &&& 0xFFE7#16
  | false, true, false, false => if w.getLsbD 11 then w else w &&& 0xF9C0#16
  | true, false, false, false => w &&& 0xF000#16
  | true, false, false, true => w ||| 0x003F#16
  | true, true, false, false => w &&& 0xF1C0#16
  | true, true, true, true => w &&& 0xF0FF#16
  | _, _, _, _ => w

/-- The instruction the decoder reads from a table row's bits: an instruction is one 16-bit word (R40), so the bits the
row gives, zeros above them; `none` for bits that are no 16-bit word. -/
def decodeTableWord (nbits w : Nat) : Option Instr :=
  if w % 2 ^ nbits < 65536 then some (decode (BitVec.ofNat 16 (w % 2 ^ nbits))) else none

end Sys2Proof
end

