-- ==== Sys2Proof/Config.lean ====
section
/-! DEFINITION. What the environment fixes or leaves free: the parameters of rule R5, and the trap port of rule R101
with its one free value, the effect of a registered trap handler. -/

namespace Sys2Proof

/-- The two Boolean parameters of R5. They are plain data that `Machine.State` carries and no step writes, so a
statement about every state holds under every setting of them (log entry 6). -/
structure Config where
  /-- `jsrr_reads_base_first`: which reading of JSRR with base R7 holds (R95, D12). -/
  jsrrReadsBaseFirst : Bool
  /-- `continue_on_fault`: whether `run` goes on after a fault (R140, D18). -/
  continueOnFault : Bool
  deriving DecidableEq, Repr

/-- The defaults R5 recommends: both false. -/
def Config.recommended : Config := { jsrrReadsBaseFirst := false, continueOnFault := false }

/-- The name of a handler capability the host registered (R20). What a handler is stays outside the block; the model
needs only to tell handlers apart (log entry 5). -/
abbrev HandlerId := Nat

/-- What a handler sees when it is called: the whole machine state, with `pc = a + 1` (R101). -/
structure TrapView where
  regs : Vector Word 8
  pc : Word
  cc : BitVec 3
  mem : List (Nat × Word)
  registry : List (Nat × HandlerId)
  deriving DecidableEq, Repr

/-- What a handler asks of the step it ran in: go on, or halt (R101, R102). -/
inductive TrapOutcome where
  | continues
  | halts
  deriving DecidableEq, Repr, Inhabited

/-- The effect of one call of a handler (R101): writes to general registers and to memory, each list in the order
written, the PC it sets if it sets one, and its outcome. It has no part for `cc` or for the registry, which a handler
cannot write. -/
structure TrapReply where
  regWrites : List (RegIndex × Word)
  memWrites : List (Word × Word)
  pcWrite : Option Word
  outcome : TrapOutcome
  deriving DecidableEq, Repr, Inhabited

/-- FREE VALUE: the parameter `trap_effect` (R5, R101, D10). The reply of a handler to a request with this vector, in
this machine state, at its `draw`-th call; a handler may keep state of its own outside the machine, hence the draw
number. No body: nothing in Lean can say what it is (log entry 4). -/
opaque Config.trapEffect (handler : HandlerId) (vector : TrapVector) (view : TrapView) (draw : Nat) : TrapReply

end Sys2Proof
end

