-- ==== Sys2Proof/Machine/State.lean ====
section
/-! DEFINITION. The state of the machine as plain data (rule R10), the outputs of its last step, the reasons a step can
stop, and the state after reset (rules R22 to R24). -/

namespace Sys2Proof.Machine

/-- One memory cell at an address. The machine has no bytes: the addressable unit is the 16-bit word (R21, R28). -/
abbrev Cell := Nat × Word

/-- Memory: the cells that do not hold 0, addresses strictly rising; an unlisted address reads as 0 (R22, log entry 8). -/
abbrev Memory := List Cell

/-- The trap registry: the vectors that have a handler, rising, each with its handler (R20). -/
abbrev Registry := List (Nat × HandlerId)

/-- The spec's one structured fault (R110). -/
inductive Fault where
  /-- The decoded opcode has no operation in the core: opcode `1101`, RTI, or TRAP with no handler for its vector. It
  carries the fetched word and its address (R110, D8). Raised by `raiseUnimplementedOpcode` alone, which RTI, the reserved
  opcode and TRAP call. The machine does not stop on it: it is recorded in the step's result and the step answers a
  next state (R112, R113). Safe: the state after it is the one R112 gives (log entry 1). -/
  | unimplementedOpcode (word address : Word)
  deriving DecidableEq, Repr

/-- Why the model would decline an instruction. -/
inductive Refusal where
  /-- An instruction whose arm of `exec` is not written yet. No arm answers it: every instruction has its meaning. Safe. -/
  | notModelled (mnemonic : String)
  deriving DecidableEq, Repr

/-- The three results a step returns (R65). -/
inductive StepResult where
  | success
  | fault (reason : Fault)
  | halt
  deriving DecidableEq, Repr

/-- One transaction the core makes on a port within a step: the two of the memory port (R25) and the request on the
trap port (R100, R101). -/
inductive Transaction where
  /-- `MemRead(addr, 1)` and the word it returned. -/
  | read (addr value : Word)
  /-- `MemWrite(addr, 1, v)`. -/
  | write (addr value : Word)
  /-- `TrapRequest(vector)`. -/
  | trapRequest (vector : TrapVector)
  deriving DecidableEq, Repr

/-- What the last step put out: its result and the core's port transactions in the order made, the fetch first (R30,
R32, R65). An output, not state: every step begins by overwriting it and no instruction reads it (log entry 1). -/
structure StepOutput where
  result : StepResult
  transactions : List Transaction
  deriving DecidableEq, Repr

/-- The machine. The first five fields are the five pieces of R10, "exactly these five pieces and nothing else"; the
last three are the model's own, for what R65, R5 and R101 put outside the state. -/
structure State where
  /-- `R[0]` to `R[7]` (R11). -/
  regs : Vector Word 8
  /-- The program counter (R13). -/
  pc : Word
  /-- The condition codes `N ++ Z ++ P` (R15). -/
  cc : BitVec 3
  /-- `M[0]` to `M[65535]` (R21). -/
  mem : Memory
  /-- The trap registry (R20). -/
  trapRegistry : Registry
  /-- The outputs of the last step (R65, R25). -/
  output : StepOutput
  /-- How many trap requests have been made: numbers the draws of `Config.trapEffect`. -/
  trapDraws : Nat
  /-- The parameters of R5. -/
  config : Config
  deriving DecidableEq, Repr

/-- The machine after reset (R22, R23, R24, R130): registers and cells 0, `pc = 0x0000`, no flag, no handler. -/
def State.reset : State where
  regs := Vector.replicate 8 0
  pc := 0
  cc := 0b000
  mem := []
  trapRegistry := []
  output := { result := .success, transactions := [] }
  trapDraws := 0
  config := Config.recommended

end Sys2Proof.Machine
end

