-- ==== Sys2Proof/Machine/Ops.lean ====
section
/-! DEFINITION. The named operations over memory, registers, the PC, the two ports and the one fault. -/

namespace Sys2Proof.Machine

/-! ### Sorted association lists, the shape of memory and of the trap registry -/

/-- The value listed at a key, if any. -/
def Sparse.lookup {α : Type} : List (Nat × α) → Nat → Option α
  | [], _ => none
  | (k, v) :: rest, a => if k = a then some v else Sparse.lookup rest a

/-- The list without any entry at a key. -/
def Sparse.remove {α : Type} (m : List (Nat × α)) (a : Nat) : List (Nat × α) :=
  m.filter (fun c => c.1 != a)

/-- The list with an entry placed before the first larger key. -/
def Sparse.place {α : Type} : List (Nat × α) → Nat → α → List (Nat × α)
  | [], a, v => [(a, v)]
  | c :: rest, a, v => if a < c.1 then (a, v) :: c :: rest else c :: Sparse.place rest a v

/-- The list with the value at a key replaced. -/
def Sparse.put {α : Type} (m : List (Nat × α)) (a : Nat) (v : α) : List (Nat × α) :=
  Sparse.place (Sparse.remove m a) a v

/-- Keys strictly rising and below a bound. -/
abbrev Sparse.rising {α : Type} (bound : Nat) (m : List (Nat × α)) : Prop :=
  m.Pairwise (fun c d => c.1 < d.1) ∧ ∀ c ∈ m, c.1 < bound

/-! ### Memory (R21, R25 to R31) -/

/-- What a cell that nothing has written reads as: 0, "allocated and zeroed" (R22, D25). -/
def Memory.unlisted : Word := 0

/-- The canonical form of memory: addresses of the 65536 cells, strictly rising, none listed with the unlisted value. -/
abbrev Memory.wf (m : Memory) : Prop := Sparse.rising 65536 m ∧ ∀ c ∈ m, c.2 ≠ Memory.unlisted

/-- The content of one cell: total, no address faults (R27). -/
def Memory.read (m : Memory) (a : Word) : Word := (Sparse.lookup m a.toNat).getD Memory.unlisted

/-- Memory with one cell replaced (R31); the canonical form is kept. -/
def Memory.write (m : Memory) (a v : Word) : Memory :=
  if v = Memory.unlisted then Sparse.remove m a.toNat else Sparse.put m a.toNat v

/-- Reading a cell of the machine's memory, with no transaction recorded. -/
def State.readMem (s : State) (a : Word) : Word := Memory.read s.mem a

/-- Replacing a cell of the machine's memory, with no transaction recorded: the host's and a trap handler's write. -/
def State.writeMem (a v : Word) (s : State) : State := { s with mem := Memory.write s.mem a v }

/-! ### The ports (R25, R100) -/

/-- Append one transaction to the step's record. -/
def State.note (t : Transaction) (s : State) : State :=
  { s with output := { s.output with transactions := s.output.transactions ++ [t] } }

/-- `MemRead(addr, 1)` on the memory port (R25): the word, and the state with the transaction recorded. A read changes
nothing else (R31). -/
def State.portRead (a : Word) (s : State) : Word × State :=
  (s.readMem a, s.note (.read a (s.readMem a)))

/-- `MemWrite(addr, 1, v)` on the memory port (R25). -/
def State.portWrite (a v : Word) (s : State) : State :=
  (s.writeMem a v).note (.write a v)

/-! ### Registers and the PC (R11, R13) -/

/-- `R[i]`: no register is hardwired (R11). -/
def State.readReg (s : State) (i : RegIndex) : Word := s.regs[i.toNat]'(i.isLt)

/-- `R[i] <- v`. -/
def State.writeReg (i : RegIndex) (v : Word) (s : State) : State :=
  { s with regs := s.regs.set i.toNat v i.isLt }

/-- `pc <- target`: the final value for the step, with no further increment (R90). -/
def State.setPc (target : Word) (s : State) : State := { s with pc := target }

/-! ### Fetch and advance (R61, R62) -/

/-- The word the next step fetches, `MemRead(pc, 1)` (R61). -/
def State.fetchWord (s : State) : Word := s.readMem s.pc

/-- The start of a step: the fetch is made on the memory port (R61), the PC is advanced by 1 modulo 65536 whatever the
word (R62), and the outputs of the step before are dropped (R65). `Success` stands until the step's rule says
otherwise. -/
def State.beginStep (s : State) : State :=
  { s with
    pc := s.pc + 1
    output := { result := .success, transactions := [.read s.pc s.fetchWord] } }

/-! ### The one fault (R110 to R113, R118) and the return from it -/

/-- `raise UnimplementedOpcode(w, a)` (R110), taken after the advance: the result of the step becomes the fault with the
word and its address, and no state changes (R112); nothing is saved and control is transferred nowhere (R118). The
address is `pc - 1`, "recoverable as `pc - 1` modulo 65536" (R112), and the word is the one memory still holds there,
since nothing was written after the fetch (log entry 3). There is no return from a fault: the machine has none (R120). -/
def State.raiseUnimplementedOpcode (s : State) : State :=
  { s with output := { s.output with
      result := .fault (.unimplementedOpcode (s.readMem (s.pc - 1)) (s.pc - 1)) } }

/-! ### The trap port (R20, R100, R101) -/

/-- The canonical form of the registry: vectors below 256, strictly rising. -/
abbrev Registry.wf (r : Registry) : Prop := Sparse.rising 256 r

/-- The handler registered for a vector, if any: `trap_registered[vector]` is `isSome` of it (R20). -/
def State.trapHandler (s : State) (v : TrapVector) : Option HandlerId := Sparse.lookup s.trapRegistry v.toNat

/-- What the handler sees (R101). -/
def State.trapView (s : State) : TrapView where
  regs := s.regs
  pc := s.pc
  cc := s.cc
  mem := s.mem
  registry := s.trapRegistry

/-- The register writes of a reply, in order. -/
def State.applyRegWrites (ws : List (RegIndex × Word)) (s : State) : State :=
  ws.foldl (fun t w => t.writeReg w.1 w.2) s

/-- The memory writes of a reply, in order. They are the handler's, not the core's, so no transaction is recorded (R30). -/
def State.applyMemWrites (ws : List (Word × Word)) (s : State) : State :=
  ws.foldl (fun t w => t.writeMem w.1 w.2) s

/-- The result a handler's outcome gives its step (R100, R102). -/
def TrapOutcome.result : TrapOutcome → StepResult
  | .continues => .success
  | .halts => .halt

/-- A reply applied to the machine (R101): registers, memory and the PC may change and the outcome decides the step's
result (R102); `cc` and the registry are out of its reach. -/
def State.applyTrapReply (r : TrapReply) (s : State) : State :=
  let t := (s.applyRegWrites r.regWrites).applyMemWrites r.memWrites
  { t with
    pc := r.pcWrite.getD t.pc
    output := { t.output with result := TrapOutcome.result r.outcome } }

/-- The reply a registered handler gives in a state: the free value `Config.trapEffect` at that state and draw. -/
def State.trapReply (h : HandlerId) (v : TrapVector) (s : State) : TrapReply :=
  Config.trapEffect h v s.trapView s.trapDraws

/-- `TrapRequest(vector)` to a registered handler (R101): the request goes out on the trap port, the handler's reply is
applied, and the draw is used up. -/
def State.trapRequest (h : HandlerId) (v : TrapVector) (s : State) : State :=
  State.applyTrapReply (s.trapReply h v) { s.note (.trapRequest v) with trapDraws := s.trapDraws + 1 }

end Sys2Proof.Machine
end

