-- ==== Sys2Proof/Machine/Operands.lean ====
section
/-! DEFINITION. The operand forms and effective addresses (rules R47, R80, R90). In each, `s.pc` is the advanced PC. -/

namespace Sys2Proof.Machine

/-- PC-relative: `trunc16(pc + sext(offset))` from the advanced PC (R67, R80): the address of LD and ST, the pointer
cell of LDI and STI, the value of LEA, the target of BR and JSR. -/
def pcRelative (off : Word) (s : State) : Word := s.pc + off

/-- Base plus offset: `trunc16(R[base] + sext_6(offset6))` (R80). The base register is not modified. -/
def baseOffset (base : RegIndex) (off : Word) (s : State) : Word := s.readReg base + off

/-- Indirect: the content of the PC-relative cell (R80), the address LDI reads and STI writes. -/
def indirectAddress (off : Word) (s : State) : Word := s.readMem (pcRelative off s)

/-- The pointer of LDI and STI, fetched on the memory port: the first data access of either (R30). -/
def readPointer (off : Word) (s : State) : Word × State := s.portRead (pcRelative off s)

/-- Where a call returns to: the advanced PC, "the address of the following instruction" (R90). -/
def returnAddress (s : State) : Word := s.pc

/-- The link register of JSR and JSRR, `R[7]` (R90). -/
def linkRegister : RegIndex := 7

end Sys2Proof.Machine
end

