-- ==== Sys2Proof/Machine/Flags.lean ====
section
/-! DEFINITION. The condition codes: their one computation (rule R66), their reader BR (rule R91) and their invariant
(rule R16). -/

namespace Sys2Proof.Machine

/-- The three flags after a result: zero gives Z, bit 15 set gives N, any other gives P, as `N ++ Z ++ P` (R15, R66). -/
def ccOf (v : Word) : BitVec 3 :=
  if v = 0x0000 then 0b010 else if v.getLsbD 15 then 0b100 else 0b001

/-- `setcc(v)` (R66). -/
def State.setcc (v : Word) (s : State) : State := { s with cc := ccOf v }

/-- The negative flag `N`, bit 2 of `cc` (R15). -/
def State.flagN (s : State) : Bool := s.cc.getLsbD 2

/-- The zero flag `Z`, bit 1 of `cc` (R15). -/
def State.flagZ (s : State) : Bool := s.cc.getLsbD 1

/-- The positive flag `P`, bit 0 of `cc` (R15). -/
def State.flagP (s : State) : Bool := s.cc.getLsbD 0

/-- `(cc AND mask) != 0`: whether a BR with this mask is taken (R46, R91). -/
def branchTaken (mask cc : BitVec 3) : Bool := cc &&& mask != 0b000

/-- Exactly one of N, Z, P holds (R16). -/
abbrev exactlyOneFlag (cc : BitVec 3) : Prop := cc = 0b100 ∨ cc = 0b010 ∨ cc = 0b001

/-- The reachable values of `cc`: no flag, or exactly one (R16). -/
abbrev legalCc (cc : BitVec 3) : Prop := cc = 0b000 ∨ exactlyOneFlag cc

/-- `R[dst] <- v; setcc(v)`: how each of the seven flag-setting instructions delivers its result (R17, R70). -/
def State.writeResult (dst : RegIndex) (v : Word) (s : State) : State := (s.writeReg dst v).setcc v

end Sys2Proof.Machine
end

