-- ==== Sys2Proof/Machine/Alu.lean ====
section
/-! DEFINITION. ADD, AND and NOT (spec 41_alu.md). Sources are read before the destination is written (R12). -/

namespace Sys2Proof.Machine

/-- ADD, register form (R71). -/
def execAddReg (dst src1 src2 : RegIndex) (s : State) : Host.Outcome State Fault Refusal :=
  .next (s.writeResult dst (s.readReg src1 + s.readReg src2))

/-- ADD, immediate form (R72). -/
def execAddImm (dst src1 : RegIndex) (imm : Word) (s : State) : Host.Outcome State Fault Refusal :=
  .next (s.writeResult dst (s.readReg src1 + imm))

/-- AND, register form (R73). -/
def execAndReg (dst src1 src2 : RegIndex) (s : State) : Host.Outcome State Fault Refusal :=
  .next (s.writeResult dst (s.readReg src1 &&& s.readReg src2))

/-- AND, immediate form (R74). -/
def execAndImm (dst src1 : RegIndex) (imm : Word) (s : State) : Host.Outcome State Fault Refusal :=
  .next (s.writeResult dst (s.readReg src1 &&& imm))

/-- NOT: `R[src] XOR 0xFFFF` (R75). -/
def execNot (dst src : RegIndex) (s : State) : Host.Outcome State Fault Refusal :=
  .next (s.writeResult dst (s.readReg src ^^^ 0xFFFF))

end Sys2Proof.Machine
end

