-- ==== Sys2Proof/Machine/Control.lean ====
section
/-! DEFINITION. BR, JMP (RET), JSR and JSRR (spec 43_control_transfer.md). -/

namespace Sys2Proof.Machine

/-- BR: taken when `(cc AND mask) != 0`; otherwise the PC stays as advanced (R91). -/
def execBr (mask : BitVec 3) (off : Word) (s : State) : Host.Outcome State Fault Refusal :=
  .next (s.setPc (bif branchTaken mask s.cc then pcRelative off s else s.pc))

/-- JMP; with base 7 it is RET, with no difference (R92). -/
def execJmp (base : RegIndex) (s : State) : Host.Outcome State Fault Refusal :=
  .next (s.setPc (s.readReg base))

/-- JSR: the link and the target come from the same advanced PC; no flag is written (R93). -/
def execJsr (off : Word) (s : State) : Host.Outcome State Fault Refusal :=
  .next ((s.writeReg linkRegister (returnAddress s)).setPc (pcRelative off s))

/-- JSRR: `R[7] <- pc; pc <- R[base]`, the statements in the order written (R94). With base 7 that order reads the
link just written; the parameter `jsrr_reads_base_first` selects the other reading, the base read first (R95). For a
base in 0..6 the two agree. -/
def execJsrr (base : RegIndex) (s : State) : Host.Outcome State Fault Refusal :=
  let linked := s.writeReg linkRegister (returnAddress s)
  .next (linked.setPc (bif s.config.jsrrReadsBaseFirst then s.readReg base else linked.readReg base))

end Sys2Proof.Machine
end

