-- ==== Sys2Proof/Machine/LoadStore.lean ====
section
/-! DEFINITION. LD, LDI, LDR, LEA, ST, STI and STR (spec 42_memory_access.md). -/

namespace Sys2Proof.Machine

/-- `v <- MemRead(ea, 1); R[dst] <- v; setcc(v)`: the common end of the loads (R80). -/
def State.loadInto (dst : RegIndex) (ea : Word) (s : State) : State :=
  let (v, t) := s.portRead ea
  t.writeResult dst v

/-- LD (R81). -/
def execLd (dst : RegIndex) (off : Word) (s : State) : Host.Outcome State Fault Refusal :=
  .next (s.loadInto dst (pcRelative off s))

/-- LDI: the pointer is read, then the value (R82). -/
def execLdi (dst : RegIndex) (off : Word) (s : State) : Host.Outcome State Fault Refusal :=
  let (p, t) := readPointer off s
  .next (t.loadInto dst p)

/-- LDR: the address is formed from the old value of the base, which may be `dst` (R83). -/
def execLdr (dst base : RegIndex) (off : Word) (s : State) : Host.Outcome State Fault Refusal :=
  .next (s.loadInto dst (baseOffset base off s))

/-- LEA: the address itself, no access; it sets the flags (R84). -/
def execLea (dst : RegIndex) (off : Word) (s : State) : Host.Outcome State Fault Refusal :=
  .next (s.writeResult dst (pcRelative off s))

/-- ST (R85). -/
def execSt (src : RegIndex) (off : Word) (s : State) : Host.Outcome State Fault Refusal :=
  .next (s.portWrite (pcRelative off s) (s.readReg src))

/-- STI: the pointer is read, then the write goes where it points (R86). -/
def execSti (src : RegIndex) (off : Word) (s : State) : Host.Outcome State Fault Refusal :=
  let (p, t) := readPointer off s
  .next (t.portWrite p (t.readReg src))

/-- STR (R87). -/
def execStr (src base : RegIndex) (off : Word) (s : State) : Host.Outcome State Fault Refusal :=
  .next (s.portWrite (baseOffset base off s) (s.readReg src))

end Sys2Proof.Machine
end

