-- ==== Sys2Proof/Machine/System.lean ====
section
/-! DEFINITION. TRAP, RTI and the reserved opcode (spec 44_trap_rti.md). -/

namespace Sys2Proof.Machine

/-- TRAP: the handler registered for the vector is called (R101); with none registered the step raises the fault. The
core saves nothing and reads no vector table (R100). -/
def execTrap (v : TrapVector) (s : State) : Host.Outcome State Fault Refusal :=
  match s.trapHandler v with
  | some h => .next (s.trapRequest h v)
  | none => .next s.raiseUnimplementedOpcode

/-- RTI: raises the fault always; no handler can be registered for it (R103). -/
def execRti (s : State) : Host.Outcome State Fault Refusal := .next s.raiseUnimplementedOpcode

/-- The reserved opcode `1101`: raises the fault always; not a no-operation (R104). -/
def execReserved (s : State) : Host.Outcome State Fault Refusal := .next s.raiseUnimplementedOpcode

end Sys2Proof.Machine
end

