-- ==== Sys2Proof/Machine/Dispatch.lean ====
section
/-! DEFINITION. The dispatch of rule R64: exactly one rule runs, chosen by the decoder's tag. -/

namespace Sys2Proof.Machine

/-- Dispatch and execute (R64), on the state in which the PC is already advanced. -/
def exec (i : Instr) (s : State) : Host.Outcome State Fault Refusal :=
  match i with
  | .br mask off => Sys2Proof.Machine.execBr mask off s
  | .addReg dst src1 src2 => Sys2Proof.Machine.execAddReg dst src1 src2 s
  | .addImm dst src1 imm => Sys2Proof.Machine.execAddImm dst src1 imm s
  | .ld dst off => Sys2Proof.Machine.execLd dst off s
  | .st src off => Sys2Proof.Machine.execSt src off s
  | .jsrr base => Sys2Proof.Machine.execJsrr base s
  | .jsr off => Sys2Proof.Machine.execJsr off s
  | .andReg dst src1 src2 => Sys2Proof.Machine.execAndReg dst src1 src2 s
  | .andImm dst src1 imm => Sys2Proof.Machine.execAndImm dst src1 imm s
  | .ldr dst base off => Sys2Proof.Machine.execLdr dst base off s
  | .str src base off => Sys2Proof.Machine.execStr src base off s
  | .rti => Sys2Proof.Machine.execRti s
  | .not dst src => Sys2Proof.Machine.execNot dst src s
  | .ldi dst off => Sys2Proof.Machine.execLdi dst off s
  | .sti src off => Sys2Proof.Machine.execSti src off s
  | .jmp base => Sys2Proof.Machine.execJmp base s
  | .reserved => Sys2Proof.Machine.execReserved s
  | .lea dst off => Sys2Proof.Machine.execLea dst off s
  | .trap vector => Sys2Proof.Machine.execTrap vector s

end Sys2Proof.Machine
end

