-- ==== Sys2Proof/Machine/Step.lean ====
section
/-! DEFINITION. The one transition of the machine (rules R60 to R65, R68). -/

namespace Sys2Proof.Machine

/-- One step (R68): fetch and advance, then decode, then dispatch on the advanced state. -/
def step (s : State) : Host.Outcome State Fault Refusal :=
  exec (decode s.fetchWord) s.beginStep

/-- The state with an instruction's bits stored where the next step fetches, the cell at `pc` (R61): the host's `load`
of one word (log entry 9). -/
def State.withFetchWord (s : State) (nbits w : Nat) : State :=
  s.writeMem s.pc (BitVec.ofNat 16 (w % 2 ^ nbits))

end Sys2Proof.Machine
end

