-- ==== Sys2Proof/Machine/HostPort.lean ====
section
/-! DEFINITION. The host port (spec 70_reset_and_hazards.md, rules R134 to R144): whole transactions made between steps
(R136), each a function of the state. -/

namespace Sys2Proof.Machine

/-! ### Read accessors (R142) -/

/-- `getRegister(index)`: the index modulo 8. -/
def getRegister (index : Nat) (s : State) : Word := s.readReg (BitVec.ofNat 3 index)

/-- `getMemory(address)`: the address modulo 65536. -/
def getMemory (address : Nat) (s : State) : Word := s.readMem (BitVec.ofNat 16 address)

/-- `getProgramCounter()`. -/
def getProgramCounter (s : State) : Word := s.pc

/-- `getConditionCodes()`. -/
def getConditionCodes (s : State) : BitVec 3 := s.cc

/-! ### Write accessors (R143): there is none for `cc` -/

/-- `setRegister(index, value)`: index modulo 8, value modulo 65536; the flags are not set. -/
def setRegister (index value : Nat) (s : State) : State :=
  s.writeReg (BitVec.ofNat 3 index) (BitVec.ofNat 16 value)

/-- `setMemory(address, value)`: address and value modulo 65536. -/
def setMemory (address value : Nat) (s : State) : State :=
  s.writeMem (BitVec.ofNat 16 address) (BitVec.ofNat 16 value)

/-- `setProgramCounter(value)`: value modulo 65536 (R14, D6). -/
def setProgramCounter (value : Nat) (s : State) : State := s.setPc (BitVec.ofNat 16 value)

/-! ### `load` (R134) and `registerTrapHandler` (R144) -/

/-- `load(startAddress, words)`: the words in order at consecutive addresses, wrapping modulo 65536. -/
def load (start : Word) (words : List Word) (s : State) : State :=
  match words with
  | [] => s
  | w :: rest => load (start + 1) rest (s.writeMem start w)

/-- `registerTrapHandler(vector, handler)`: binds the handler, replacing any earlier one; no architectural state
changes (R20, R144). -/
def registerTrapHandler (v : TrapVector) (h : HandlerId) (s : State) : State :=
  { s with trapRegistry := Sparse.put s.trapRegistry v.toNat h }

/-! ### `step` and `run` (R137, R139 to R141) -/

/-- The state a step leaves. A step of this machine always answers a next state (R60); the other arm keeps the state. -/
def nextState (s : State) : State :=
  match step s with
  | .next t => t
  | .fault _ => s
  | .refused _ => s

/-- The three ends of a run (R141). -/
inductive RunEnd where
  | halted
  | faulted (reason : Fault)
  /-- `maxSteps` steps were performed; the last fault seen, if any (R139). -/
  | budgetExhausted (lastFault : Option Fault)
  deriving DecidableEq, Repr

/-- What `run` reports, and the state it leaves. -/
structure RunResult where
  steps : Nat
  ending : RunEnd
  final : State
  deriving DecidableEq, Repr

/-- The loop of R139, with `budget` steps left, `n` performed and the last fault seen. -/
def runLoop (budget n : Nat) (lastFault : Option Fault) (s : State) : RunResult :=
  match budget with
  | 0 => { steps := n, ending := .budgetExhausted lastFault, final := s }
  | k + 1 =>
    let t := nextState s
    match t.output.result with
    | .halt => { steps := n + 1, ending := .halted, final := t }
    | .fault f =>
      if s.config.continueOnFault then runLoop k (n + 1) (some f) t
      else { steps := n + 1, ending := .faulted f, final := t }
    | .success => runLoop k (n + 1) lastFault t

/-- `run(maxSteps: u32)` (R139): steps until a halt, until a fault unless `continue_on_fault` (R140), or until the
budget is used. -/
def run (maxSteps : BitVec 32) (s : State) : RunResult := runLoop maxSteps.toNat 0 none s

end Sys2Proof.Machine
end

