-- ==== Sys2Proof/Safety.lean ====
section
/-! DEFINITION. What counts as a safe run, the machine's invariant, and the words the claims use for what an instruction
leaves unchanged. -/

namespace Sys2Proof.Machine

/-- The invariant every step and every host operation keeps: memory and registry in canonical form, and a reachable
value of `cc` (R16). -/
abbrev State.Inv (s : State) : Prop :=
  Memory.wf s.mem ∧ Registry.wf s.trapRegistry ∧ legalCc s.cc

/-- The step that led to this state reported a fault (R65, R113). -/
def State.reportsFault (s : State) : Bool :=
  match s.output.result with
  | .fault _ => true
  | .success => false
  | .halt => false

/-- A run of `k` steps in which no fault is reported: the premise R113 asks a claim to take. -/
def faultFree : Nat → State → Prop
  | 0, _ => True
  | k + 1, s => (nextState s).reportsFault = false ∧ faultFree k (nextState s)

/-- The state after `k` steps. -/
def afterSteps : Nat → State → State
  | 0, s => s
  | k + 1, s => afterSteps k (nextState s)

/-! ### Frames -/

/-- Every general register but those listed is unchanged. -/
def regsKeptExcept (ds : List RegIndex) (s t : State) : Prop :=
  ∀ r, r ∉ ds → t.readReg r = s.readReg r

/-- Every memory cell but those listed reads as before. -/
def cellsKeptExcept (as : List Word) (s t : State) : Prop :=
  ∀ a, a ∉ as → t.readMem a = s.readMem a

/-- The registry, the parameters and the draw counter are unchanged. -/
def environmentKept (s t : State) : Prop :=
  t.trapRegistry = s.trapRegistry ∧ t.config = s.config ∧ t.trapDraws = s.trapDraws

/-- All a write of the host may change: the registers and cells listed and the PC. The flags, the registry, the
parameters, the draw counter and the outputs of the last step stay (R143). -/
def hostWrote (ds : List RegIndex) (as : List Word) (s t : State) : Prop :=
  regsKeptExcept ds s t ∧ cellsKeptExcept as s t ∧ t.cc = s.cc ∧ environmentKept s t ∧ t.output = s.output

/-- The step's result is as it was (no fault, no halt), and exactly these port transactions were made, in this order. -/
def portsDid (ts : List Transaction) (s t : State) : Prop :=
  t.output.result = s.output.result ∧ t.output.transactions = s.output.transactions ++ ts

/-- The whole effect of a flag-setting instruction: `v` in `dst`, the flags from `v`, the port transactions `ts`, and
nothing else. -/
def resultDelivered (dst : RegIndex) (v : Word) (ts : List Transaction) (s t : State) : Prop :=
  t.readReg dst = v ∧ t.cc = ccOf v ∧ regsKeptExcept [dst] s t ∧ t.pc = s.pc ∧ cellsKeptExcept [] s t ∧
  environmentKept s t ∧ portsDid ts s t

/-- The whole effect of a store: `v` in the cell `a`, the port transactions `ts`, and nothing else. -/
def cellStored (a v : Word) (ts : List Transaction) (s t : State) : Prop :=
  t.readMem a = v ∧ cellsKeptExcept [a] s t ∧ regsKeptExcept [] s t ∧ t.cc = s.cc ∧ t.pc = s.pc ∧
  environmentKept s t ∧ portsDid ts s t

/-- The whole effect of a transfer of control: the PC at `target`, and of the registers only `links` may change. -/
def transferred (target : Word) (links : List RegIndex) (s t : State) : Prop :=
  t.pc = target ∧ regsKeptExcept links s t ∧ t.cc = s.cc ∧ cellsKeptExcept [] s t ∧
  environmentKept s t ∧ portsDid [] s t

/-- The whole effect of raising the fault with this word and address (R110, R112): it is reported, and nothing of the
machine changes. -/
def faultReported (w a : Word) (s t : State) : Prop :=
  t.output.result = .fault (.unimplementedOpcode w a) ∧ t.output.transactions = s.output.transactions ∧
  t.pc = s.pc ∧ regsKeptExcept [] s t ∧ t.cc = s.cc ∧ cellsKeptExcept [] s t ∧ environmentKept s t

/-! ### The spec's tables over all instructions -/

/-- The register whose new value sets the flags, for the seven instructions that write `cc` (R17). -/
def flagSource : Instr → Option RegIndex
  | .addReg dst _ _ | .addImm dst _ _ | .andReg dst _ _ | .andImm dst _ _ | .not dst _ => some dst
  | .ld dst _ | .ldi dst _ | .ldr dst _ _ | .lea dst _ => some dst
  | .br _ _ | .st _ _ | .jsrr _ | .jsr _ | .str _ _ _ | .rti | .sti _ _ | .jmp _ | .reserved | .trap _ => none

/-- The general registers an instruction writes, in the core (the table of R12). -/
def writtenRegs : Instr → List RegIndex
  | .addReg dst _ _ | .addImm dst _ _ | .andReg dst _ _ | .andImm dst _ _ | .not dst _ => [dst]
  | .ld dst _ | .ldi dst _ | .ldr dst _ _ | .lea dst _ => [dst]
  | .jsrr _ | .jsr _ => [7]
  | .br _ _ | .st _ _ | .str _ _ _ | .rti | .sti _ _ | .jmp _ | .reserved | .trap _ => []

/-- The cells an instruction stores to, from the advanced state (R30, R80). -/
def storedCells (i : Instr) (s : State) : List Word :=
  match i with
  | .st _ off => [pcRelative off s]
  | .sti _ off => [indirectAddress off s]
  | .str _ base off => [baseOffset base off s]
  | .addReg _ _ _ | .addImm _ _ _ | .andReg _ _ _ | .andImm _ _ _ | .not _ _ => []
  | .ld _ _ | .ldi _ _ | .ldr _ _ _ | .lea _ _ | .br _ _ | .jmp _ | .jsr _ | .jsrr _ => []
  | .trap _ | .rti | .reserved => []

/-- The port transactions of an instruction after its fetch, in order, from the advanced state: the table of R30, and
the request of R100 for a TRAP with a handler. -/
def coreTraffic (i : Instr) (s : State) : List Transaction :=
  match i with
  | .ld _ off => [.read (pcRelative off s) (s.readMem (pcRelative off s))]
  | .ldr _ base off => [.read (baseOffset base off s) (s.readMem (baseOffset base off s))]
  | .ldi _ off =>
    [.read (pcRelative off s) (indirectAddress off s),
      .read (indirectAddress off s) (s.readMem (indirectAddress off s))]
  | .st src off => [.write (pcRelative off s) (s.readReg src)]
  | .str src base off => [.write (baseOffset base off s) (s.readReg src)]
  | .sti src off =>
    [.read (pcRelative off s) (indirectAddress off s), .write (indirectAddress off s) (s.readReg src)]
  | .trap v => if (s.trapHandler v).isSome then [.trapRequest v] else []
  | .addReg _ _ _ | .addImm _ _ _ | .andReg _ _ _ | .andImm _ _ _ | .not _ _ | .lea _ _ => []
  | .br _ _ | .jmp _ | .jsr _ | .jsrr _ | .rti | .reserved => []

/-- The instruction is a TRAP that calls a handler: the one instruction whose effect is not the core's (R101). -/
def callsHandler (i : Instr) (s : State) : Bool :=
  match i with
  | .trap v => (s.trapHandler v).isSome
  | .addReg _ _ _ | .addImm _ _ _ | .andReg _ _ _ | .andImm _ _ _ | .not _ _ => false
  | .ld _ _ | .ldi _ _ | .ldr _ _ _ | .lea _ _ | .st _ _ | .sti _ _ | .str _ _ _ => false
  | .br _ _ | .jmp _ | .jsr _ | .jsrr _ | .rti | .reserved => false

/-- The instruction may write the PC after the advance: BR, JMP, JSR, JSRR (R14). -/
def transfersControl : Instr → Bool
  | .br _ _ | .jmp _ | .jsr _ | .jsrr _ => true
  | .addReg _ _ _ | .addImm _ _ _ | .andReg _ _ _ | .andImm _ _ _ | .not _ _ => false
  | .ld _ _ | .ldi _ _ | .ldr _ _ _ | .lea _ _ | .st _ _ | .sti _ _ | .str _ _ _ => false
  | .trap _ | .rti | .reserved => false

/-- The causes of the fault (R110): the word's opcode is `1101` or `1000`, or it is `1111` and its vector has no
handler. -/
def causesFault (w : Word) (s : State) : Prop :=
  field w 12 4 = 0b1101 ∨ field w 12 4 = 0b1000 ∨
  (field w 12 4 = 0b1111 ∧ s.trapHandler (field w 0 8) = none)

end Sys2Proof.Machine
end

