-- ==== Sys2Proof/Certificates/Slice0/Obligations.lean ====
section
/-! DEFINITION. The statements for the provers. Where a docstring names a log entry or a decision D<n> of the spec, that
clause is the model's or the spec's own choice and no rule of the source. -/

open Sys2Proof Sys2Proof.Machine

/-! ### The encoding -/

/-- Words written out from the formats of R44 and the vectors V1 to V20, and what they decode to. -/
def Obligations.WrittenOutWordsDecodeAsTheSpecSays : Prop :=
  decode 0b0001_001_000_1_00000 = .addImm 1 0 0 ∧
  decode 0b0101_000_000_1_00000 = .andImm 0 0 0 ∧
  decode 0b0001_001_010_0_11_011 = .addReg 1 2 3 ∧
  decode 0b1001_001_010_000000 = .not 1 2 ∧
  decode 0b0000_010_000000101 = .br 0b010 0x0005 ∧
  decode 0b0000_111_111111111 = .br 0b111 0xFFFF ∧
  decode 0b0100_1_11111111111 = .jsr 0xFFFF ∧
  decode 0b0100_0_11_010_111111 = .jsrr 2 ∧
  decode 0b1100_111_011_111111 = .jmp 3 ∧
  decode 0b0110_111_001_111111 = .ldr 7 1 0xFFFF ∧
  decode 0b0111_001_010_011111 = .str 1 2 0x001F ∧
  decode 0b1010_001_100000000 = .ldi 1 0xFF00 ∧
  decode 0b1011_000_111111111 = .sti 0 0xFFFF ∧
  decode 0b1111_1111_00100101 = .trap 0x25 ∧
  decode 0b1000_101010111100 = .rti ∧
  decode 0b1101_111111111111 = .reserved

/-- `decode(encode(i)) = i` for every instruction whose operands are in range, and only the unimplemented tag has no
word (R54, R59). The opcode numbers and some field places are the spec's K1 to K5 (log entry 10). -/
def Obligations.DecodeOfEncodeIsTheInstruction : Prop :=
  (∀ (i : Instr) (w : Word), i.wf = true → encode i = some w → decode w = i) ∧
  (∀ i : Instr, encode i = none ↔ i = .reserved)

/-- `encode(decode(w))` is `w` with its ignored bits canonical, for every word of a defined opcode (R54). The ignored
bits and their canonical values are the spec's D3 and K5 (log entry 10). -/
def Obligations.EncodeOfDecodeIsTheCanonicalWord : Prop :=
  ∀ w : Word, field w 12 4 ≠ 0b1101 →
    encode (decode w) = some (canonicalWord w) ∧ decode (canonicalWord w) = decode w

/-- The decoder delivers every operand in the range of its field (R47). -/
def Obligations.DecodedInstructionsAreWellFormed : Prop :=
  ∀ w : Word, (decode w).wf = true

/-- Words that differ only in bits no field covers decode alike (R48; the spec's decision D3). -/
def Obligations.IgnoredBitsDoNotChangeTheDecoding : Prop :=
  ∀ w x : Word, field w 12 4 = field x 12 4 →
    ((field w 12 4 = 0b0001 ∨ field w 12 4 = 0b0101) → w.getLsbD 5 = false → x.getLsbD 5 = false →
      field w 6 6 = field x 6 6 → field w 0 3 = field x 0 3 → decode w = decode x) ∧
    (field w 12 4 = 0b1001 → field w 6 6 = field x 6 6 → decode w = decode x) ∧
    (field w 12 4 = 0b1100 → field w 6 3 = field x 6 3 → decode w = decode x) ∧
    (field w 12 4 = 0b0100 → w.getLsbD 11 = false → x.getLsbD 11 = false →
      field w 6 3 = field x 6 3 → decode w = decode x) ∧
    (field w 12 4 = 0b1111 → field w 0 8 = field x 0 8 → decode w = decode x) ∧
    ((field w 12 4 = 0b1000 ∨ field w 12 4 = 0b1101) → decode w = decode x)

/-- Exactly the words `0xD000` to `0xDFFF` get the unimplemented tag (R51; that the value is `1101` is the spec's K2,
log entry 10). -/
def Obligations.UnimplementedTagExactlyOnD000ToDFFF : Prop :=
  ∀ w : Word, decode w = .reserved ↔ 0xD000 ≤ w.toNat ∧ w.toNat ≤ 0xDFFF

/-- `sext_N` in numbers (R8), at every width the formats use (R47). -/
def Obligations.SignExtensionInNumbers : Prop :=
  ∀ (n : Nat) (f : BitVec n), 0 < n → n ≤ 16 →
    (f.getLsbD (n - 1) = false → (sext f).toNat = f.toNat) ∧
    (f.getLsbD (n - 1) = true → (sext f).toNat = f.toNat + 65536 - 2 ^ n)

/-! ### The step -/

/-- R61 and R62: the word at the PC is fetched, the PC advances by 1 modulo 65536, and the decoded instruction is
executed on that state. The record of outputs is the model's (log entry 1): it restarts as Success with the fetch. -/
def Obligations.StepExecutesTheWordAtThePc : Prop :=
  (∀ (s : State) (i : Instr), decode (s.readMem s.pc) = i →
    step s = exec i { s with
      pc := s.pc + 1
      output := { result := .success, transactions := [.read s.pc (s.readMem s.pc)] } }) ∧
  (∀ s : State, (s.pc + 1).toNat = (s.pc.toNat + 1) % 65536) ∧
  (0xFFFF : Word) + 1 = 0x0000

/-- Every step of every state answers a next state: nothing in the machine is stuck, no access faults, no word lacks a
meaning (R27, R60). That a faulting word answers a next state too is log entry 1; that a trap handler always returns is
log entry 7. -/
def Obligations.EveryStepAnswersANextState : Prop :=
  ∀ s : State, ∃ t, step s = .next t

/-- The step's outputs are no state: no step depends on what the one before put out (R65). The record is the model's
(log entry 1). -/
def Obligations.StepIgnoresTheOutputsOfTheLast : Prop :=
  ∀ (s : State) (o : StepOutput), step { s with output := o } = step s

/-- R66: `setcc`, with its boundary values, and that the seven instructions set the flags from the value they wrote and
no step sets them otherwise. -/
def Obligations.FlagsFollowTheValueWrittenAndNothingElse : Prop :=
  (∀ (v : Word) (s : State), (s.setcc v).cc =
    if v = 0x0000 then 0b010 else if v.getLsbD 15 = true then 0b100 else 0b001) ∧
  (∀ (v : Word) (s : State), exactlyOneFlag (s.setcc v).cc) ∧
  ccOf 0x0000 = 0b010 ∧ ccOf 0x0001 = 0b001 ∧ ccOf 0x7FFF = 0b001 ∧ ccOf 0x8000 = 0b100 ∧ ccOf 0xFFFF = 0b100 ∧
  (∀ s t : State, step s = .next t →
    (∀ d, flagSource (decode s.fetchWord) = some d → t.cc = ccOf (t.readReg d)) ∧
    (flagSource (decode s.fetchWord) = none → t.cc = s.cc))

/-- The invariant of R16 over runs: once a flag-setting instruction has executed, exactly one flag holds after any
number of further steps. -/
def Obligations.ExactlyOneFlagHoldsEverAfter : Prop :=
  ∀ (s : State) (k : Nat),
    exactlyOneFlag s.cc ∨ flagSource (decode s.fetchWord) ≠ none →
    exactlyOneFlag (afterSteps (k + 1) s).cc

/-- R67: every PC-relative address is the instruction's address plus 1 plus the offset, and the link is the
instruction's address plus 1; nothing is added after a transfer. -/
def Obligations.PcRelativeAddressesUseTheAdvancedPc : Prop :=
  ∀ (s t : State) (off : Word), step s = .next t →
    (∀ d, decode s.fetchWord = .ld d off → t.readReg d = s.readMem (s.pc + 1 + off)) ∧
    (∀ d, decode s.fetchWord = .ldi d off → t.readReg d = s.readMem (s.readMem (s.pc + 1 + off))) ∧
    (∀ d, decode s.fetchWord = .lea d off → t.readReg d = s.pc + 1 + off) ∧
    (∀ r, decode s.fetchWord = .st r off → t.readMem (s.pc + 1 + off) = s.readReg r) ∧
    (∀ r, decode s.fetchWord = .sti r off → t.readMem (s.readMem (s.pc + 1 + off)) = s.readReg r) ∧
    (∀ m, decode s.fetchWord = .br m off → s.cc &&& m ≠ 0 → t.pc = s.pc + 1 + off) ∧
    (decode s.fetchWord = .jsr off → t.pc = s.pc + 1 + off ∧ t.readReg 7 = s.pc + 1) ∧
    (∀ b, decode s.fetchWord = .jsrr b → t.readReg 7 = s.pc + 1 ∧ (b ≠ 7 → t.pc = s.readReg b)) ∧
    (∀ b, decode s.fetchWord = .jmp b → t.pc = s.readReg b)

/-! ### ADD, AND, NOT -/

/-- R71. The places of the fields are those of R43, src2's by the spec's K3 (log entry 10). -/
def Obligations.AddRegisterForm : Prop :=
  (∀ w : Word, field w 12 4 = 0b0001 → w.getLsbD 5 = false →
    decode w = .addReg (field w 9 3) (field w 6 3) (field w 0 3)) ∧
  (∀ dst src1 src2 : RegIndex, encode (.addReg dst src1 src2) =
    some (BitVec.ofNat 16 (0x1000 + dst.toNat * 512 + src1.toNat * 64 + src2.toNat))) ∧
  (∀ (dst src1 src2 : RegIndex) (s : State), ∃ t, exec (.addReg dst src1 src2) s = .next t ∧
    resultDelivered dst (s.readReg src1 + s.readReg src2) [] s t)

/-- R72. -/
def Obligations.AddImmediateForm : Prop :=
  (∀ w : Word, field w 12 4 = 0b0001 → w.getLsbD 5 = true →
    decode w = .addImm (field w 9 3) (field w 6 3) (sext (field w 0 5))) ∧
  (∀ (dst src1 : RegIndex) (imm : Word), encode (.addImm dst src1 imm) =
    some (BitVec.ofNat 16 (0x1020 + dst.toNat * 512 + src1.toNat * 64 + (low 5 imm).toNat))) ∧
  (∀ (dst src1 : RegIndex) (imm : Word) (s : State), ∃ t, exec (.addImm dst src1 imm) s = .next t ∧
    resultDelivered dst (s.readReg src1 + imm) [] s t)

/-- R73. -/
def Obligations.AndRegisterForm : Prop :=
  (∀ w : Word, field w 12 4 = 0b0101 → w.getLsbD 5 = false →
    decode w = .andReg (field w 9 3) (field w 6 3) (field w 0 3)) ∧
  (∀ dst src1 src2 : RegIndex, encode (.andReg dst src1 src2) =
    some (BitVec.ofNat 16 (0x5000 + dst.toNat * 512 + src1.toNat * 64 + src2.toNat))) ∧
  (∀ (dst src1 src2 : RegIndex) (s : State), ∃ t, exec (.andReg dst src1 src2) s = .next t ∧
    resultDelivered dst (s.readReg src1 &&& s.readReg src2) [] s t)

/-- R74. -/
def Obligations.AndImmediateForm : Prop :=
  (∀ w : Word, field w 12 4 = 0b0101 → w.getLsbD 5 = true →
    decode w = .andImm (field w 9 3) (field w 6 3) (sext (field w 0 5))) ∧
  (∀ (dst src1 : RegIndex) (imm : Word), encode (.andImm dst src1 imm) =
    some (BitVec.ofNat 16 (0x5020 + dst.toNat * 512 + src1.toNat * 64 + (low 5 imm).toNat))) ∧
  (∀ (dst src1 : RegIndex) (imm : Word) (s : State), ∃ t, exec (.andImm dst src1 imm) s = .next t ∧
    resultDelivered dst (s.readReg src1 &&& imm) [] s t)

/-- R75. The opcode number is the spec's K1 and the places of the fields its K3 (log entry 10). -/
def Obligations.NotComplementsSixteenBits : Prop :=
  (∀ w : Word, field w 12 4 = 0b1001 → decode w = .not (field w 9 3) (field w 6 3)) ∧
  (∀ dst src : RegIndex, encode (.not dst src) =
    some (BitVec.ofNat 16 (0x903F + dst.toNat * 512 + src.toNat * 64))) ∧
  (∀ (dst src : RegIndex) (s : State), ∃ t, exec (.not dst src) s = .next t ∧
    resultDelivered dst (s.readReg src ^^^ 0xFFFF) [] s t ∧ (t.readReg dst).toNat = 65535 - (s.readReg src).toNat)

/-! ### Loads and LEA (opcode numbers: the spec's K1, log entry 10) -/

/-- R81. -/
def Obligations.LoadPcRelative : Prop :=
  (∀ w : Word, field w 12 4 = 0b0010 → decode w = .ld (field w 9 3) (sext (field w 0 9))) ∧
  (∀ (dst : RegIndex) (off : Word), encode (.ld dst off) =
    some (BitVec.ofNat 16 (0x2000 + dst.toNat * 512 + (low 9 off).toNat))) ∧
  (∀ (dst : RegIndex) (off : Word) (s : State), ∃ t, exec (.ld dst off) s = .next t ∧
    resultDelivered dst (s.readMem (pcRelative off s))
      [.read (pcRelative off s) (s.readMem (pcRelative off s))] s t)

/-- R82: two reads, the pointer and then the value; no write. -/
def Obligations.LoadIndirect : Prop :=
  (∀ w : Word, field w 12 4 = 0b1010 → decode w = .ldi (field w 9 3) (sext (field w 0 9))) ∧
  (∀ (dst : RegIndex) (off : Word), encode (.ldi dst off) =
    some (BitVec.ofNat 16 (0xA000 + dst.toNat * 512 + (low 9 off).toNat))) ∧
  (∀ (dst : RegIndex) (off : Word) (s : State), ∃ t, exec (.ldi dst off) s = .next t ∧
    resultDelivered dst (s.readMem (s.readMem (pcRelative off s)))
      [.read (pcRelative off s) (s.readMem (pcRelative off s)),
        .read (s.readMem (pcRelative off s)) (s.readMem (s.readMem (pcRelative off s)))] s t)

/-- R83: the address comes from the old value of the base register, which may be the destination. -/
def Obligations.LoadBaseOffset : Prop :=
  (∀ w : Word, field w 12 4 = 0b0110 → decode w = .ldr (field w 9 3) (field w 6 3) (sext (field w 0 6))) ∧
  (∀ (dst base : RegIndex) (off : Word), encode (.ldr dst base off) =
    some (BitVec.ofNat 16 (0x6000 + dst.toNat * 512 + base.toNat * 64 + (low 6 off).toNat))) ∧
  (∀ (dst base : RegIndex) (off : Word) (s : State), ∃ t, exec (.ldr dst base off) s = .next t ∧
    resultDelivered dst (s.readMem (baseOffset base off s))
      [.read (baseOffset base off s) (s.readMem (baseOffset base off s))] s t)

/-- R84: no memory access; the flags come from the address. -/
def Obligations.LoadEffectiveAddress : Prop :=
  (∀ w : Word, field w 12 4 = 0b1110 → decode w = .lea (field w 9 3) (sext (field w 0 9))) ∧
  (∀ (dst : RegIndex) (off : Word), encode (.lea dst off) =
    some (BitVec.ofNat 16 (0xE000 + dst.toNat * 512 + (low 9 off).toNat))) ∧
  (∀ (dst : RegIndex) (off : Word) (s : State), ∃ t, exec (.lea dst off) s = .next t ∧
    resultDelivered dst (pcRelative off s) [] s t)

/-! ### Stores (opcode numbers: the spec's K1, log entry 10) -/

/-- R85. -/
def Obligations.StorePcRelative : Prop :=
  (∀ w : Word, field w 12 4 = 0b0011 → decode w = .st (field w 9 3) (sext (field w 0 9))) ∧
  (∀ (src : RegIndex) (off : Word), encode (.st src off) =
    some (BitVec.ofNat 16 (0x3000 + src.toNat * 512 + (low 9 off).toNat))) ∧
  (∀ (src : RegIndex) (off : Word) (s : State) (a : Word), pcRelative off s = a →
    ∃ t, exec (.st src off) s = .next t ∧ cellStored a (s.readReg src) [.write a (s.readReg src)] s t)

/-- R86: one read, the pointer, then one write where it points. -/
def Obligations.StoreIndirect : Prop :=
  (∀ w : Word, field w 12 4 = 0b1011 → decode w = .sti (field w 9 3) (sext (field w 0 9))) ∧
  (∀ (src : RegIndex) (off : Word), encode (.sti src off) =
    some (BitVec.ofNat 16 (0xB000 + src.toNat * 512 + (low 9 off).toNat))) ∧
  (∀ (src : RegIndex) (off : Word) (s : State) (p : Word), s.readMem (pcRelative off s) = p →
    ∃ t, exec (.sti src off) s = .next t ∧
      cellStored p (s.readReg src) [.read (pcRelative off s) p, .write p (s.readReg src)] s t)

/-- R87. -/
def Obligations.StoreBaseOffset : Prop :=
  (∀ w : Word, field w 12 4 = 0b0111 → decode w = .str (field w 9 3) (field w 6 3) (sext (field w 0 6))) ∧
  (∀ (src base : RegIndex) (off : Word), encode (.str src base off) =
    some (BitVec.ofNat 16 (0x7000 + src.toNat * 512 + base.toNat * 64 + (low 6 off).toNat))) ∧
  (∀ (src base : RegIndex) (off : Word) (s : State) (a : Word), baseOffset base off s = a →
    ∃ t, exec (.str src base off) s = .next t ∧ cellStored a (s.readReg src) [.write a (s.readReg src)] s t)

/-- R26: every address computed is taken modulo 65536, and cell 65535 is followed by cell 0 for the fetch, for `load`
and for every offset. -/
def Obligations.AddressesWrapModulo65536 : Prop :=
  (∀ (off : Word) (s : State), (pcRelative off s).toNat = (s.pc.toNat + off.toNat) % 65536) ∧
  (∀ (base : RegIndex) (off : Word) (s : State),
    (baseOffset base off s).toNat = ((s.readReg base).toNat + off.toNat) % 65536) ∧
  (∀ (base : RegIndex) (s : State), s.readReg base = 0xFFFF → baseOffset base 2 s = 0x0001) ∧
  (∀ s : State, s.pc = 0x0000 → pcRelative (sext (0x1FF : BitVec 9)) s = 0xFFFF) ∧
  (∀ s : State, s.pc = 0xFFFF → s.beginStep.fetchWord = s.readMem 0x0000) ∧
  (∀ (u v : Word) (s : State), (load 0xFFFF [u, v] s).readMem 0xFFFF = u ∧ (load 0xFFFF [u, v] s).readMem 0x0000 = v)

/-! ### BR, JMP, JSR, JSRR (opcode numbers and places not forced: the spec's K1, K3, K4, log entry 10) -/

/-- R91: taken exactly when the mask meets a flag that holds; never with mask `000`, and never while no flag holds. -/
def Obligations.BranchTakenExactlyWhenTheMaskMeetsAFlag : Prop :=
  (∀ w : Word, field w 12 4 = 0b0000 → decode w = .br (field w 9 3) (sext (field w 0 9))) ∧
  (∀ (mask : BitVec 3) (off : Word), encode (.br mask off) =
    some (BitVec.ofNat 16 ((mask.getLsbD 2).toNat * 2048 + (mask.getLsbD 1).toNat * 1024 +
      (mask.getLsbD 0).toNat * 512 + (low 9 off).toNat))) ∧
  (∀ (mask : BitVec 3) (off : Word) (s : State), ∃ t, exec (.br mask off) s = .next t ∧
    transferred (if s.cc &&& mask ≠ 0b000 then s.pc + off else s.pc) [] s t) ∧
  (∀ (mask : BitVec 3) (s : State), s.cc &&& mask ≠ 0b000 ↔
    (mask.getLsbD 2 = true ∧ s.flagN = true) ∨ (mask.getLsbD 1 = true ∧ s.flagZ = true) ∨
      (mask.getLsbD 0 = true ∧ s.flagP = true)) ∧
  (∀ (off : Word) (s : State), exec (.br 0b000 off) s = .next s) ∧
  (∀ (mask : BitVec 3) (off : Word) (s : State), s.cc = 0b000 → exec (.br mask off) s = .next s)

/-- R92: RET is the JMP word with base 7. -/
def Obligations.JumpGoesToTheBaseRegister : Prop :=
  (∀ w : Word, field w 12 4 = 0b1100 → decode w = .jmp (field w 6 3)) ∧
  (∀ base : RegIndex, encode (.jmp base) = some (BitVec.ofNat 16 (0xC000 + base.toNat * 64))) ∧
  decode 0xC1C0 = .jmp 7 ∧
  (∀ (base : RegIndex) (s : State), ∃ t, exec (.jmp base) s = .next t ∧ transferred (s.readReg base) [] s t)

/-- R93. -/
def Obligations.JumpToSubroutinePcRelative : Prop :=
  (∀ w : Word, field w 12 4 = 0b0100 → w.getLsbD 11 = true → decode w = .jsr (sext (field w 0 11))) ∧
  (∀ off : Word, encode (.jsr off) = some (BitVec.ofNat 16 (0x4800 + (low 11 off).toNat))) ∧
  (∀ (off : Word) (s : State), ∃ t, exec (.jsr off) s = .next t ∧ transferred (s.pc + off) [7] s t ∧
    t.readReg 7 = s.pc)

/-- R94, for a base in 0..6, under either setting of `jsrr_reads_base_first`. -/
def Obligations.JumpToSubroutineThroughARegister : Prop :=
  (∀ w : Word, field w 12 4 = 0b0100 → w.getLsbD 11 = false → decode w = .jsrr (field w 6 3)) ∧
  (∀ base : RegIndex, encode (.jsrr base) = some (BitVec.ofNat 16 (0x4000 + base.toNat * 64))) ∧
  (∀ (base : RegIndex) (s : State), base ≠ 7 → ∃ t, exec (.jsrr base) s = .next t ∧
    transferred (s.readReg base) [7] s t ∧ t.readReg 7 = s.pc)

/-- R95: JSRR with base 7 under each setting of the parameter (the spec's decision D12, log entry 6). -/
def Obligations.JumpToSubroutineThroughR7BothReadings : Prop :=
  ∀ s : State, ∃ t, exec (.jsrr 7) s = .next t ∧ t.readReg 7 = s.pc ∧
    transferred (if s.config.jsrrReadsBaseFirst = true then s.readReg 7 else s.pc) [7] s t

/-! ### TRAP, RTI and the reserved opcode -/

/-- R100, no handler registered: the fault with the word and its address, and only the PC moves in the step. That the
step answers a next state with the fault in its result is log entry 1; the PC after it is the spec's D7. -/
def Obligations.TrapWithoutAHandlerReportsTheFault : Prop :=
  (∀ w : Word, field w 12 4 = 0b1111 → decode w = .trap (field w 0 8)) ∧
  (∀ v : TrapVector, encode (.trap v) = some (BitVec.ofNat 16 (0xF000 + v.toNat))) ∧
  (∀ (v : TrapVector) (s : State), s.trapHandler v = none → ∃ t, exec (.trap v) s = .next t ∧
    faultReported (s.readMem (s.pc - 1)) (s.pc - 1) s t)

/-- R101 and R102, a handler registered: the core puts the request on the trap port and applies the handler's reply,
whatever it is (the free value `Config.trapEffect`, log entry 4); `cc`, the registry and the parameters stay, and the
handler's outcome decides between Success and Halt. What a handler may do is the spec's decision D10. That the step
ends, the handler always returning, is the model's choice of log entry 7 (R60, U2); the request in the record of outputs
and the result there are log entry 1. -/
def Obligations.TrapWithAHandlerAppliesItsReply : Prop :=
  ∀ (v : TrapVector) (h : HandlerId) (s : State), s.trapHandler v = some h →
    ∃ t, exec (.trap v) s = .next t ∧
      t = State.applyTrapReply (s.trapReply h v)
        { s.note (.trapRequest v) with trapDraws := s.trapDraws + 1 } ∧
      t.pc = (s.trapReply h v).pcWrite.getD s.pc ∧
      t.cc = s.cc ∧ t.trapRegistry = s.trapRegistry ∧ t.config = s.config ∧ t.trapDraws = s.trapDraws + 1 ∧
      t.output.transactions = s.output.transactions ++ [.trapRequest v] ∧
      t.output.result = (if (s.trapReply h v).outcome = .halts then .halt else .success)

/-- R101: what any reply does to any state. The last write to a register or cell stands, every place not written keeps
its value, the PC moves only if the reply writes it; `cc`, the registry, the parameters, the draw counter and the core's
own transactions stay (the spec's decision D10). -/
def Obligations.HandlerReplyWritesWhatItSaysAndNoMore : Prop :=
  ∀ (r : TrapReply) (s : State),
    (∀ i, (∀ w ∈ r.regWrites, w.1 ≠ i) → (s.applyTrapReply r).readReg i = s.readReg i) ∧
    (∀ before i x after, r.regWrites = before ++ (i, x) :: after → (∀ w ∈ after, w.1 ≠ i) →
      (s.applyTrapReply r).readReg i = x) ∧
    (∀ a, (∀ w ∈ r.memWrites, w.1 ≠ a) → (s.applyTrapReply r).readMem a = s.readMem a) ∧
    (∀ before a x after, r.memWrites = before ++ (a, x) :: after → (∀ w ∈ after, w.1 ≠ a) →
      (s.applyTrapReply r).readMem a = x) ∧
    (r.pcWrite = none → (s.applyTrapReply r).pc = s.pc) ∧
    (∀ p, r.pcWrite = some p → (s.applyTrapReply r).pc = p) ∧
    (s.applyTrapReply r).cc = s.cc ∧ environmentKept s (s.applyTrapReply r) ∧
    (s.applyTrapReply r).output.transactions = s.output.transactions

/-- R103: RTI reports the fault always, whatever is registered, and restores nothing (the spec's D9 and C4; log
entry 1). -/
def Obligations.RtiReportsTheFault : Prop :=
  (∀ w : Word, field w 12 4 = 0b1000 → decode w = .rti) ∧
  encode .rti = some 0x8000 ∧
  (∀ s : State, ∃ t, exec .rti s = .next t ∧ faultReported (s.readMem (s.pc - 1)) (s.pc - 1) s t)

/-- R104: the reserved opcode reports the fault always (its number is the spec's K2; log entry 1). -/
def Obligations.ReservedOpcodeReportsTheFault : Prop :=
  (∀ w : Word, field w 12 4 = 0b1101 → decode w = .reserved) ∧
  (∀ s : State, ∃ t, exec .reserved s = .next t ∧ faultReported (s.readMem (s.pc - 1)) (s.pc - 1) s t)

/-- R110: a step reports a fault exactly when its word is one of the three causes, and the fault carries the word and
the address it was fetched from (the payload is the spec's D8). -/
def Obligations.FaultExactlyOnTheThreeCauses : Prop :=
  ∀ s t : State, step s = .next t →
    (t.reportsFault = true ↔ causesFault s.fetchWord s) ∧
    (t.reportsFault = true → t.output.result = .fault (.unimplementedOpcode s.fetchWord s.pc))

/-- R112: a step that reports a fault changes the PC only, to the address after the word (the spec's C2 and D7). -/
def Obligations.FaultedStepMovesOnlyThePc : Prop :=
  ∀ s t : State, step s = .next t → t.reportsFault = true →
    t = { s with pc := s.pc + 1, output := t.output }

/-- R102, R114: a step's result is Halt exactly when its word is a TRAP with a handler and the handler asks for it. -/
def Obligations.HaltExactlyAtTheWishOfATrapHandler : Prop :=
  ∀ s t : State, step s = .next t →
    (t.output.result = .halt ↔
      ∃ v h, decode s.fetchWord = .trap v ∧ s.trapHandler v = some h ∧
        (s.beginStep.trapReply h v).outcome = .halts)

/-! ### Whole-machine rules -/

/-- The memory traffic of every step, the fetch first, as in the table of R30. The request of a TRAP with a handler is
no row of that table: it is made on the trap port (R100, R101, the spec's D17). The record that shows the transactions is
the model's (log entry 1). -/
def Obligations.MemoryTrafficOfEveryStep : Prop :=
  ∀ s t : State, step s = .next t →
    t.output.transactions = .read s.pc s.fetchWord :: coreTraffic (decode s.fetchWord) s.beginStep

/-- R12: a step writes no general register but those the table gives its instruction, unless it calls a trap handler. -/
def Obligations.StepWritesOnlyTheRegistersOfTheTable : Prop :=
  ∀ s t : State, step s = .next t → callsHandler (decode s.fetchWord) s = false →
    regsKeptExcept (writtenRegs (decode s.fetchWord)) s t

/-- Memory changes only at the cell ST, STI or STR stores to, unless a trap handler is called (R10, R80; the spec's C6). -/
def Obligations.MemoryChangesOnlyWhereAStoreWrites : Prop :=
  ∀ s t : State, step s = .next t → callsHandler (decode s.fetchWord) s = false →
    cellsKeptExcept (storedCells (decode s.fetchWord) s.beginStep) s t

/-- R14: a step ends with the PC advanced by 1 unless its instruction is BR, JMP, JSR or JSRR or it calls a handler. -/
def Obligations.OnlyTransfersMoveThePcElsewhere : Prop :=
  ∀ s t : State, step s = .next t → callsHandler (decode s.fetchWord) s = false →
    transfersControl (decode s.fetchWord) = false → t.pc = s.pc + 1

/-- R10, R20: no step changes the trap registry; nor does one change the parameters (log entry 6). -/
def Obligations.NoStepChangesTheRegistryOrTheParameters : Prop :=
  ∀ s t : State, step s = .next t → t.trapRegistry = s.trapRegistry ∧ t.config = s.config

/-- R17: BR alone reads the flags. With other flags every other word has the same effect, the flags it writes included;
a TRAP that calls a handler, which sees the flags (R101), has it whenever the handler gives the same reply under both,
so the flags reach the step through that reply alone (the free value of log entry 4). -/
def Obligations.OnlyBranchReadsTheFlags : Prop :=
  ∀ (s : State) (c : BitVec 3), (∀ m off, decode s.fetchWord ≠ .br m off) →
    (∀ v h, decode s.fetchWord = .trap v → s.trapHandler v = some h →
      { s.beginStep with cc := c }.trapReply h v = s.beginStep.trapReply h v) →
    ∃ t, step s = .next t ∧ step { s with cc := c } =
      .next { t with cc := if flagSource (decode s.fetchWord) = none then c else t.cc }

/-- The five pieces of R10 determine the next five, but for a TRAP that calls a handler and for the open case JSRR R7
(R95): the model's own fields reach no other result. -/
def Obligations.FivePiecesDetermineTheNextFive : Prop :=
  ∀ s s' t t' : State, s.regs = s'.regs → s.pc = s'.pc → s.cc = s'.cc → s.mem = s'.mem →
    s.trapRegistry = s'.trapRegistry → callsHandler (decode s.fetchWord) s = false →
    decode s.fetchWord ≠ .jsrr 7 → step s = .next t → step s' = .next t' →
    t.regs = t'.regs ∧ t.pc = t'.pc ∧ t.cc = t'.cc ∧ t.mem = t'.mem ∧ t.trapRegistry = t'.trapRegistry ∧
      t.output = t'.output

/-- R39: the word a store puts at the next address is the one the next step executes, with nothing in between. -/
def Obligations.NextFetchSeesTheStore : Prop :=
  ∀ s t : State, step s = .next t → storedCells (decode s.fetchWord) s.beginStep = [s.pc + 1] →
    ∃ v, t.output.transactions.getLast? = some (.write (s.pc + 1) v) ∧ t.pc = s.pc + 1 ∧
      step t = exec (decode v) t.beginStep

/-! ### Reset and the invariant -/

/-- R22: after reset every general register and every memory cell is 0. -/
def Obligations.ResetZeroesRegistersAndMemory : Prop :=
  (∀ r, State.reset.readReg r = 0) ∧ (∀ a, State.reset.readMem a = 0)

/-- R23 and R24: `pc`, `cc` and the registry after reset (the spec's decisions D5 and D10); the model's own fields
after reset are log entries 2, 4 and 6. -/
def Obligations.ResetPcFlagsAndRegistry : Prop :=
  State.reset.pc = 0x0000 ∧ State.reset.cc = 0b000 ∧ (∀ v, State.reset.trapHandler v = none) ∧
  State.reset.config.jsrrReadsBaseFirst = false ∧ State.reset.config.continueOnFault = false

/-- The reset state meets the invariant: the canonical forms of log entry 8 and the values of `cc` of R16. -/
def Obligations.ResetMeetsTheInvariant : Prop := State.Inv State.reset

/-- Every step keeps the invariant, whatever a trap handler replies: memory and registry stay in the canonical form
the model chose (log entry 8) and `cc` stays one of the four values of R16. -/
def Obligations.EveryStepKeepsTheInvariant : Prop :=
  ∀ s t : State, State.Inv s → step s = .next t → State.Inv t

/-- Every operation of the host port that writes keeps the invariant (the canonical forms of log entry 8 and R16), `run`
included. -/
def Obligations.HostOperationsKeepTheInvariant : Prop :=
  ∀ s : State, State.Inv s →
    (∀ i v, State.Inv (setRegister i v s)) ∧ (∀ a v, State.Inv (setMemory a v s)) ∧
    (∀ v, State.Inv (setProgramCounter v s)) ∧ (∀ a ws, State.Inv (load a ws s)) ∧
    (∀ v h, State.Inv (registerTrapHandler v h s)) ∧ (∀ n, State.Inv (run n s).final)

/-- Two memories in canonical form that read alike at every address are equal data (log entry 8). -/
def Obligations.CanonicalMemoriesThatReadAlikeAreEqual : Prop :=
  ∀ m n : Memory, Memory.wf m → Memory.wf n → (∀ a, Memory.read m a = Memory.read n a) → m = n

/-! ### The host port -/

/-- R134: each word lands at its address modulo 65536 unless a later one overwrites it, every other cell reads as before,
and no register, PC or flag changes. -/
def Obligations.LoadWritesTheBlockWrappingAround : Prop :=
  ∀ (start : Word) (words : List Word) (s : State),
    (∀ (i : Nat) (h : i < words.length), (∀ j, i < j → j < words.length → j % 65536 ≠ i % 65536) →
      (load start words s).readMem (start + BitVec.ofNat 16 i) = words[i]) ∧
    (∀ a, (∀ i, i < words.length → a ≠ start + BitVec.ofNat 16 i) → (load start words s).readMem a = s.readMem a) ∧
    regsKeptExcept [] s (load start words s) ∧ (load start words s).pc = s.pc ∧ (load start words s).cc = s.cc ∧
    environmentKept s (load start words s)

/-- R142, R143: each accessor reads or writes the place it names, the index modulo 8, the address and the value modulo
65536, and a write changes nothing else, the flags included (the spec's decisions D6 and D19). -/
def Obligations.AccessorsReadAndWriteOnePlace : Prop :=
  ∀ s : State,
    (∀ (i : Nat) (r : RegIndex), r.toNat = i % 8 → getRegister i s = s.readReg r) ∧
    (∀ (n : Nat) (a : Word), a.toNat = n % 65536 → getMemory n s = s.readMem a) ∧
    getProgramCounter s = s.pc ∧ getConditionCodes s = s.cc ∧
    (∀ (i v : Nat) (r : RegIndex) (x : Word), r.toNat = i % 8 → x.toNat = v % 65536 →
      hostWrote [r] [] s (setRegister i v s) ∧ (setRegister i v s).readReg r = x ∧
      getRegister i (setRegister i v s) = x ∧ (setRegister i v s).pc = s.pc) ∧
    (∀ (i j v : Nat), i % 8 ≠ j % 8 → getRegister j (setRegister i v s) = getRegister j s) ∧
    (∀ (n v : Nat) (a x : Word), a.toNat = n % 65536 → x.toNat = v % 65536 →
      hostWrote [] [a] s (setMemory n v s) ∧ (setMemory n v s).readMem a = x ∧
      getMemory n (setMemory n v s) = x ∧ (setMemory n v s).pc = s.pc) ∧
    (∀ (m n v : Nat), m % 65536 ≠ n % 65536 → getMemory n (setMemory m v s) = getMemory n s) ∧
    (∀ (v : Nat) (x : Word), x.toNat = v % 65536 →
      hostWrote [] [] s (setProgramCounter v s) ∧ (setProgramCounter v s).pc = x)

/-- R144: the handler is bound to the vector, replacing any earlier one; other vectors keep theirs, nothing else changes,
and only a TRAP consults the registry: every other word has the same effect with and without the registration. -/
def Obligations.RegistrationBindsOneVectorForTrapAlone : Prop :=
  ∀ (v : TrapVector) (h : HandlerId) (s : State),
    (registerTrapHandler v h s).trapHandler v = some h ∧
    (∀ u, u ≠ v → (registerTrapHandler v h s).trapHandler u = s.trapHandler u) ∧
    registerTrapHandler v h s = { s with trapRegistry := (registerTrapHandler v h s).trapRegistry } ∧
    ((∀ u, decode s.fetchWord ≠ .trap u) →
      ∃ t, step s = .next t ∧ step (registerTrapHandler v h s) = .next (registerTrapHandler v h t))

/-- R139, R140, R141: `run` is exactly the steps it performs, at most `maxSteps`, and its end is the result of its last
step: a halt ends it Halted and an untolerated fault Faulted, also when the budget runs out with that step. The
count includes the terminating step (the spec's decision D18). -/
def Obligations.RunIsTheStepsItPerforms : Prop :=
  ∀ (n : BitVec 32) (s : State),
    (run n s).final = afterSteps (run n s).steps s ∧ (run n s).steps ≤ n.toNat ∧
    match (run n s).ending with
    | .halted => 0 < (run n s).steps ∧ (run n s).final.output.result = .halt
    | .faulted f =>
      0 < (run n s).steps ∧ (run n s).final.output.result = .fault f ∧ s.config.continueOnFault = false
    | .budgetExhausted _ =>
      (run n s).steps = n.toNat ∧
      (0 < n.toNat → (run n s).final.output.result ≠ .halt ∧
        ((run n s).final.reportsFault = true → s.config.continueOnFault = true))

/-- R139, R140: `run` goes past no step that halts, and past a step that faults only when `continue_on_fault` is set. -/
def Obligations.RunStopsAtTheFirstHaltOrFault : Prop :=
  ∀ (n : BitVec 32) (s : State) (k : Nat), 0 < k → k < (run n s).steps →
    (afterSteps k s).output.result ≠ .halt ∧
    ((afterSteps k s).reportsFault = true → s.config.continueOnFault = true)

/-- R139, R140: a run that used its budget keeps the last fault reported (the spec's decision D18). -/
def Obligations.ExhaustedRunKeepsTheLastFault : Prop :=
  ∀ (n : BitVec 32) (s : State),
    (∀ f, (run n s).ending = .budgetExhausted (some f) →
      ∃ k, 0 < k ∧ k ≤ n.toNat ∧ (afterSteps k s).output.result = .fault f ∧
        ∀ j, k < j → j ≤ n.toNat → (afterSteps j s).reportsFault = false) ∧
    ((run n s).ending = .budgetExhausted none →
      ∀ j, 0 < j → j ≤ n.toNat → (afterSteps j s).reportsFault = false)
end

