-- ==== Sys2Proof/Laws/Encoding.lean ====
section
/-! SUPPORT. The bits of a placed field, and that `low` and `sext` undo each other where R47 says the operand is in range. -/

namespace Sys2Proof

/-- Which bits a placed field puts into the word. -/
theorem getLsbD_placed {n : Nat} (f : BitVec n) (lo i : Nat) :
    (placed f lo).getLsbD i = (decide (i < 16) && decide (lo ≤ i) && f.getLsbD (i - lo)) := by
  unfold placed
  rw [BitVec.getLsbD_shiftLeft, BitVec.getLsbD_setWidth]
  by_cases h : i < lo
  · simp [h]
  · by_cases h16 : i < 16
    · have hlt : i - lo < 16 := by omega
      have hle : lo ≤ i := by omega
      simp [h16, hlt, hle]
    · simp [h16]

/-- Which bits a field cut out of a word holds. -/
theorem getLsbD_field (w : Word) (lo len i : Nat) :
    (field w lo len).getLsbD i = (decide (i < len) && w.getLsbD (lo + i)) := by
  simp [field, BitVec.getLsbD_extractLsb']

/-- The low bits of a sign-extended field are the field (R54). -/
theorem low_sext {n : Nat} (h : n ≤ 16) (f : BitVec n) : low n (sext f) = f := by
  apply BitVec.eq_of_getLsbD_eq
  intro i hi
  have h16 : i < 16 := by omega
  simp [low, sext, BitVec.getLsbD_setWidth, BitVec.getLsbD_signExtend, hi, h16, -BitVec.getLsbD_eq_getElem]

end Sys2Proof
end

