-- ==== Sys2Proof/Laws/State.lean ====
section
/-! SUPPORT. One lemma for each field of the state under each elementary update, true by definition. -/

namespace Sys2Proof.Machine

/-! ### `setPc` -/

@[simp] theorem State.setPc_regs (v : Word) (s : State) : (s.setPc v).regs = s.regs := rfl
@[simp] theorem State.setPc_pc (v : Word) (s : State) : (s.setPc v).pc = v := rfl
@[simp] theorem State.setPc_cc (v : Word) (s : State) : (s.setPc v).cc = s.cc := rfl
@[simp] theorem State.setPc_mem (v : Word) (s : State) : (s.setPc v).mem = s.mem := rfl
@[simp] theorem State.setPc_trapRegistry (v : Word) (s : State) : (s.setPc v).trapRegistry = s.trapRegistry := rfl
@[simp] theorem State.setPc_output (v : Word) (s : State) : (s.setPc v).output = s.output := rfl
@[simp] theorem State.setPc_trapDraws (v : Word) (s : State) : (s.setPc v).trapDraws = s.trapDraws := rfl
@[simp] theorem State.setPc_config (v : Word) (s : State) : (s.setPc v).config = s.config := rfl

/-! ### `setcc` -/

@[simp] theorem State.setcc_regs (v : Word) (s : State) : (s.setcc v).regs = s.regs := rfl
@[simp] theorem State.setcc_pc (v : Word) (s : State) : (s.setcc v).pc = s.pc := rfl
@[simp] theorem State.setcc_cc (v : Word) (s : State) : (s.setcc v).cc = ccOf v := rfl
@[simp] theorem State.setcc_mem (v : Word) (s : State) : (s.setcc v).mem = s.mem := rfl
@[simp] theorem State.setcc_trapRegistry (v : Word) (s : State) : (s.setcc v).trapRegistry = s.trapRegistry := rfl
@[simp] theorem State.setcc_output (v : Word) (s : State) : (s.setcc v).output = s.output := rfl
@[simp] theorem State.setcc_trapDraws (v : Word) (s : State) : (s.setcc v).trapDraws = s.trapDraws := rfl
@[simp] theorem State.setcc_config (v : Word) (s : State) : (s.setcc v).config = s.config := rfl

/-! ### `writeReg` -/

@[simp] theorem State.writeReg_regs (i : RegIndex) (v : Word) (s : State) :
    (s.writeReg i v).regs = s.regs.set i.toNat v i.isLt := rfl
@[simp] theorem State.writeReg_pc (i : RegIndex) (v : Word) (s : State) : (s.writeReg i v).pc = s.pc := rfl
@[simp] theorem State.writeReg_cc (i : RegIndex) (v : Word) (s : State) : (s.writeReg i v).cc = s.cc := rfl
@[simp] theorem State.writeReg_mem (i : RegIndex) (v : Word) (s : State) : (s.writeReg i v).mem = s.mem := rfl
@[simp] theorem State.writeReg_trapRegistry (i : RegIndex) (v : Word) (s : State) :
    (s.writeReg i v).trapRegistry = s.trapRegistry := rfl
@[simp] theorem State.writeReg_output (i : RegIndex) (v : Word) (s : State) :
    (s.writeReg i v).output = s.output := rfl
@[simp] theorem State.writeReg_trapDraws (i : RegIndex) (v : Word) (s : State) :
    (s.writeReg i v).trapDraws = s.trapDraws := rfl
@[simp] theorem State.writeReg_config (i : RegIndex) (v : Word) (s : State) :
    (s.writeReg i v).config = s.config := rfl

/-! ### `writeMem` -/

@[simp] theorem State.writeMem_regs (a v : Word) (s : State) : (s.writeMem a v).regs = s.regs := rfl
@[simp] theorem State.writeMem_pc (a v : Word) (s : State) : (s.writeMem a v).pc = s.pc := rfl
@[simp] theorem State.writeMem_cc (a v : Word) (s : State) : (s.writeMem a v).cc = s.cc := rfl
@[simp] theorem State.writeMem_mem (a v : Word) (s : State) : (s.writeMem a v).mem = Memory.write s.mem a v := rfl
@[simp] theorem State.writeMem_trapRegistry (a v : Word) (s : State) :
    (s.writeMem a v).trapRegistry = s.trapRegistry := rfl
@[simp] theorem State.writeMem_output (a v : Word) (s : State) : (s.writeMem a v).output = s.output := rfl
@[simp] theorem State.writeMem_trapDraws (a v : Word) (s : State) : (s.writeMem a v).trapDraws = s.trapDraws := rfl
@[simp] theorem State.writeMem_config (a v : Word) (s : State) : (s.writeMem a v).config = s.config := rfl

/-! ### `note` -/

@[simp] theorem State.note_regs (x : Transaction) (s : State) : (s.note x).regs = s.regs := rfl
@[simp] theorem State.note_pc (x : Transaction) (s : State) : (s.note x).pc = s.pc := rfl
@[simp] theorem State.note_cc (x : Transaction) (s : State) : (s.note x).cc = s.cc := rfl
@[simp] theorem State.note_mem (x : Transaction) (s : State) : (s.note x).mem = s.mem := rfl
@[simp] theorem State.note_trapRegistry (x : Transaction) (s : State) :
    (s.note x).trapRegistry = s.trapRegistry := rfl
@[simp] theorem State.note_trapDraws (x : Transaction) (s : State) : (s.note x).trapDraws = s.trapDraws := rfl
@[simp] theorem State.note_config (x : Transaction) (s : State) : (s.note x).config = s.config := rfl

/-! ### `beginStep` -/

@[simp] theorem State.beginStep_regs (s : State) : (s.beginStep).regs = s.regs := rfl
@[simp] theorem State.beginStep_pc (s : State) : (s.beginStep).pc = s.pc + 1 := rfl
@[simp] theorem State.beginStep_cc (s : State) : (s.beginStep).cc = s.cc := rfl
@[simp] theorem State.beginStep_mem (s : State) : (s.beginStep).mem = s.mem := rfl
@[simp] theorem State.beginStep_trapRegistry (s : State) : (s.beginStep).trapRegistry = s.trapRegistry := rfl
@[simp] theorem State.beginStep_trapDraws (s : State) : (s.beginStep).trapDraws = s.trapDraws := rfl
@[simp] theorem State.beginStep_config (s : State) : (s.beginStep).config = s.config := rfl

/-! ### `raiseUnimplementedOpcode` -/

@[simp] theorem State.raiseUnimplementedOpcode_regs (s : State) : (s.raiseUnimplementedOpcode).regs = s.regs := rfl
@[simp] theorem State.raiseUnimplementedOpcode_pc (s : State) : (s.raiseUnimplementedOpcode).pc = s.pc := rfl
@[simp] theorem State.raiseUnimplementedOpcode_cc (s : State) : (s.raiseUnimplementedOpcode).cc = s.cc := rfl
@[simp] theorem State.raiseUnimplementedOpcode_mem (s : State) : (s.raiseUnimplementedOpcode).mem = s.mem := rfl
@[simp] theorem State.raiseUnimplementedOpcode_trapRegistry (s : State) :
    (s.raiseUnimplementedOpcode).trapRegistry = s.trapRegistry := rfl
@[simp] theorem State.raiseUnimplementedOpcode_trapDraws (s : State) :
    (s.raiseUnimplementedOpcode).trapDraws = s.trapDraws := rfl
@[simp] theorem State.raiseUnimplementedOpcode_config (s : State) :
    (s.raiseUnimplementedOpcode).config = s.config := rfl

/-! ### The outputs -/

@[simp] theorem State.note_result (x : Transaction) (s : State) :
    (s.note x).output.result = s.output.result := rfl
@[simp] theorem State.note_transactions (x : Transaction) (s : State) :
    (s.note x).output.transactions = s.output.transactions ++ [x] := rfl
@[simp] theorem State.beginStep_result (s : State) : s.beginStep.output.result = .success := rfl
@[simp] theorem State.beginStep_transactions (s : State) :
    s.beginStep.output.transactions = [.read s.pc s.fetchWord] := rfl
@[simp] theorem State.raiseUnimplementedOpcode_result (s : State) :
    s.raiseUnimplementedOpcode.output.result
      = .fault (.unimplementedOpcode (s.readMem (s.pc - 1)) (s.pc - 1)) := rfl
@[simp] theorem State.raiseUnimplementedOpcode_transactions (s : State) :
    s.raiseUnimplementedOpcode.output.transactions = s.output.transactions := rfl

end Sys2Proof.Machine
end

