-- ==== Sys2Proof/Laws/Memory.lean ====
section
/-! SUPPORT. What a lookup sees after each change of a sorted list, that every change keeps the canonical form, and the
same for memory, registers and the registry. -/

namespace Sys2Proof.Machine

/-! ### Sorted association lists -/

theorem Sparse.lookup_eq_none_of_notMem {α : Type} {m : List (Nat × α)} {a : Nat}
    (h : ∀ c ∈ m, c.1 ≠ a) : Sparse.lookup m a = none := by
  induction m with
  | nil => rfl
  | cons c rest ih =>
    have hc : c.1 ≠ a := h c (by simp)
    have hr : Sparse.lookup rest a = none := ih fun d hd => h d (by simp [hd])
    simpa [Sparse.lookup, hc] using hr

theorem Sparse.lookup_remove {α : Type} (m : List (Nat × α)) (a b : Nat) :
    Sparse.lookup (Sparse.remove m a) b = if b = a then none else Sparse.lookup m b := by
  induction m with
  | nil => simp [Sparse.remove, Sparse.lookup]
  | cons c rest ih =>
    obtain ⟨k, v⟩ := c
    unfold Sparse.remove at ih ⊢
    by_cases hk : k = a <;> by_cases hb : b = a <;> by_cases hkb : k = b <;>
      simp_all [Sparse.lookup]

theorem Sparse.lookup_place {α : Type} (m : List (Nat × α)) (a : Nat) (v : α) (b : Nat)
    (h : ∀ c ∈ m, c.1 ≠ a) :
    Sparse.lookup (Sparse.place m a v) b = if b = a then some v else Sparse.lookup m b := by
  induction m with
  | nil => simp [Sparse.place, Sparse.lookup, eq_comm]
  | cons c rest ih =>
    obtain ⟨k, w⟩ := c
    have hk : k ≠ a := h (k, w) (by simp)
    have hrest := ih fun d hd => h d (by simp [hd])
    have hab : k = b → b ≠ a := fun e => e ▸ hk
    unfold Sparse.place
    split
    · by_cases hb : b = a
      · simp [Sparse.lookup, hb]
      · simp [Sparse.lookup, hb, Ne.symm hb]
    · by_cases hkb : k = b
      · simp [Sparse.lookup, hkb, hab hkb]
      · simpa [Sparse.lookup, hkb] using hrest

theorem Sparse.mem_remove {α : Type} {m : List (Nat × α)} {a : Nat} {c : Nat × α} :
    c ∈ Sparse.remove m a ↔ c ∈ m ∧ c.1 ≠ a := by
  simp [Sparse.remove]

theorem Sparse.lookup_put {α : Type} (m : List (Nat × α)) (a : Nat) (v : α) (b : Nat) :
    Sparse.lookup (Sparse.put m a v) b = if b = a then some v else Sparse.lookup m b := by
  unfold Sparse.put
  rw [Sparse.lookup_place _ _ _ _ fun c hc => (Sparse.mem_remove.mp hc).2, Sparse.lookup_remove]
  split <;> rfl

theorem Sparse.mem_place {α : Type} {m : List (Nat × α)} {a : Nat} {v : α} {c : Nat × α} :
    c ∈ Sparse.place m a v ↔ c = (a, v) ∨ c ∈ m := by
  induction m with
  | nil => simp [Sparse.place]
  | cons d rest ih =>
    unfold Sparse.place
    split
    · simp
    · simp only [List.mem_cons, ih]
      tauto

theorem Sparse.rising_remove {α : Type} {bound : Nat} {m : List (Nat × α)} (h : Sparse.rising bound m)
    (a : Nat) : Sparse.rising bound (Sparse.remove m a) :=
  ⟨h.1.filter _, fun c hc => h.2 c (Sparse.mem_remove.mp hc).1⟩

theorem Sparse.rising_place {α : Type} {bound : Nat} {m : List (Nat × α)} (h : Sparse.rising bound m)
    {a : Nat} (v : α) (ha : a < bound) (hm : ∀ c ∈ m, c.1 ≠ a) :
    Sparse.rising bound (Sparse.place m a v) := by
  refine ⟨?_, fun c hc => ?_⟩
  · induction m with
    | nil => simp [Sparse.place]
    | cons d rest ih =>
      obtain ⟨hp, hb⟩ := h
      rw [List.pairwise_cons] at hp
      have hd : d.1 ≠ a := hm d (by simp)
      unfold Sparse.place
      split
      · rename_i hlt
        refine List.pairwise_cons.mpr ⟨fun c hc => ?_, List.pairwise_cons.mpr hp⟩
        rcases List.mem_cons.mp hc with rfl | hc
        · exact hlt
        · exact lt_trans hlt (hp.1 c hc)
      · refine List.pairwise_cons.mpr ⟨fun c hc => ?_, ih ⟨hp.2, fun c hc => hb c (by simp [hc])⟩
          fun c hc => hm c (by simp [hc])⟩
        rcases Sparse.mem_place.mp hc with rfl | hc
        · show d.1 < a
          omega
        · exact hp.1 c hc
  · rcases Sparse.mem_place.mp hc with rfl | hc
    · exact ha
    · exact h.2 c hc

theorem Sparse.rising_put {α : Type} {bound : Nat} {m : List (Nat × α)} (h : Sparse.rising bound m)
    {a : Nat} (v : α) (ha : a < bound) : Sparse.rising bound (Sparse.put m a v) :=
  Sparse.rising_place (Sparse.rising_remove h a) v ha fun _ hc => (Sparse.mem_remove.mp hc).2

/-! ### Memory -/

/-- A read after a write: the written cell holds the value, every other reads as before (R31). -/
theorem Memory.read_write (m : Memory) (a v b : Word) :
    Memory.read (Memory.write m a v) b = if b = a then v else Memory.read m b := by
  have hab : b.toNat = a.toNat ↔ b = a := BitVec.toNat_inj
  unfold Memory.read Memory.write
  split
  · rename_i hv
    rw [Sparse.lookup_remove]
    by_cases h : b = a <;> simp [h, hv, hab]
  · rw [Sparse.lookup_put]
    by_cases h : b = a <;> simp [h, hab]

/-- A write keeps the canonical form. -/
theorem Memory.wf_write {m : Memory} (h : Memory.wf m) (a v : Word) : Memory.wf (Memory.write m a v) := by
  unfold Memory.write
  split
  · exact ⟨Sparse.rising_remove h.1 _, fun c hc => h.2 c (Sparse.mem_remove.mp hc).1⟩
  · rename_i hv
    refine ⟨Sparse.rising_put h.1 v a.isLt, fun c hc => ?_⟩
    rcases Sparse.mem_place.mp hc with rfl | hc
    · exact hv
    · exact h.2 c (Sparse.mem_remove.mp hc).1

theorem Memory.wf_reset : Memory.wf State.reset.mem := by decide

@[simp] theorem Memory.read_nil (a : Word) : Memory.read [] a = 0 := rfl

@[simp] theorem State.readMem_writeMem (s : State) (a v b : Word) :
    (s.writeMem a v).readMem b = if b = a then v else s.readMem b := Memory.read_write s.mem a v b

theorem State.readMem_congr {s t : State} (h : t.mem = s.mem) (a : Word) : t.readMem a = s.readMem a :=
  congrArg (Memory.read · a) h

@[simp] theorem State.readMem_setPc (s : State) (v a : Word) : (s.setPc v).readMem a = s.readMem a := rfl
@[simp] theorem State.readMem_setcc (s : State) (v a : Word) : (s.setcc v).readMem a = s.readMem a := rfl
@[simp] theorem State.readMem_writeReg (s : State) (i : RegIndex) (v a : Word) :
    (s.writeReg i v).readMem a = s.readMem a := rfl
@[simp] theorem State.readMem_note (s : State) (x : Transaction) (a : Word) :
    (s.note x).readMem a = s.readMem a := rfl
@[simp] theorem State.readMem_beginStep (s : State) (a : Word) : s.beginStep.readMem a = s.readMem a := rfl
@[simp] theorem State.readMem_raise (s : State) (a : Word) :
    s.raiseUnimplementedOpcode.readMem a = s.readMem a := rfl

/-! ### Registers -/

/-- A register read after a register write (R11). -/
@[simp] theorem State.readReg_writeReg (s : State) (i : RegIndex) (v : Word) (j : RegIndex) :
    (s.writeReg i v).readReg j = if j = i then v else s.readReg j := by
  have hij : i.toNat = j.toNat ↔ j = i := by rw [BitVec.toNat_inj, eq_comm]
  simp only [State.readReg, State.writeReg, Vector.getElem_set]
  by_cases h : j = i <;> simp [h, hij]

theorem State.readReg_congr {s t : State} (h : t.regs = s.regs) (i : RegIndex) : t.readReg i = s.readReg i := by
  unfold State.readReg
  simp only [h]

@[simp] theorem State.readReg_setPc (s : State) (v : Word) (i : RegIndex) : (s.setPc v).readReg i = s.readReg i := rfl
@[simp] theorem State.readReg_setcc (s : State) (v : Word) (i : RegIndex) : (s.setcc v).readReg i = s.readReg i := rfl
@[simp] theorem State.readReg_writeMem (s : State) (a v : Word) (i : RegIndex) :
    (s.writeMem a v).readReg i = s.readReg i := rfl
@[simp] theorem State.readReg_note (s : State) (x : Transaction) (i : RegIndex) :
    (s.note x).readReg i = s.readReg i := rfl
@[simp] theorem State.readReg_beginStep (s : State) (i : RegIndex) : s.beginStep.readReg i = s.readReg i := rfl
@[simp] theorem State.readReg_raise (s : State) (i : RegIndex) :
    s.raiseUnimplementedOpcode.readReg i = s.readReg i := rfl

theorem State.readReg_reset (i : RegIndex) : State.reset.readReg i = 0 := by
  unfold State.readReg State.reset
  simp

/-! ### The registry -/

/-- A registration keeps the registry's canonical form. -/
theorem Registry.wf_put {r : Registry} (h : Registry.wf r) (v : TrapVector) (x : HandlerId) :
    Registry.wf (Sparse.put r v.toNat x) := Sparse.rising_put h x v.isLt

theorem Registry.wf_reset : Registry.wf State.reset.trapRegistry := by decide

end Sys2Proof.Machine
end

