-- ==== Sys2Proof/Laws/Operations.lean ====
section
/-! SUPPORT. One specification for each shared operation, and the equation of each instruction's meaning: what later
proofs cite in place of unfolding. -/

namespace Sys2Proof.Machine

/-! ### `writeResult`, the end of the seven flag-setting instructions -/

@[simp] theorem State.writeResult_readReg (s : State) (d : RegIndex) (v : Word) (r : RegIndex) :
    (s.writeResult d v).readReg r = if r = d then v else s.readReg r := by
  simp [State.writeResult]
@[simp] theorem State.writeResult_pc (s : State) (d : RegIndex) (v : Word) : (s.writeResult d v).pc = s.pc := rfl
@[simp] theorem State.writeResult_cc (s : State) (d : RegIndex) (v : Word) : (s.writeResult d v).cc = ccOf v := rfl
@[simp] theorem State.writeResult_mem (s : State) (d : RegIndex) (v : Word) : (s.writeResult d v).mem = s.mem := rfl
@[simp] theorem State.writeResult_readMem (s : State) (d : RegIndex) (v a : Word) :
    (s.writeResult d v).readMem a = s.readMem a := rfl
@[simp] theorem State.writeResult_trapRegistry (s : State) (d : RegIndex) (v : Word) :
    (s.writeResult d v).trapRegistry = s.trapRegistry := rfl
@[simp] theorem State.writeResult_output (s : State) (d : RegIndex) (v : Word) :
    (s.writeResult d v).output = s.output := rfl
@[simp] theorem State.writeResult_trapDraws (s : State) (d : RegIndex) (v : Word) :
    (s.writeResult d v).trapDraws = s.trapDraws := rfl
@[simp] theorem State.writeResult_config (s : State) (d : RegIndex) (v : Word) :
    (s.writeResult d v).config = s.config := rfl

/-- Every result sets exactly one flag (R66). -/
theorem ccOf_exactlyOneFlag (v : Word) : exactlyOneFlag (ccOf v) := by
  unfold ccOf exactlyOneFlag
  split
  · simp
  · split <;> simp

/-! ### The memory port -/

@[simp] theorem State.portRead_value (s : State) (a : Word) : (s.portRead a).1 = s.readMem a := rfl
@[simp] theorem State.portRead_state (s : State) (a : Word) :
    (s.portRead a).2 = s.note (.read a (s.readMem a)) := rfl
theorem State.portWrite_eq (s : State) (a v : Word) : s.portWrite a v = (s.writeMem a v).note (.write a v) := rfl
theorem State.loadInto_eq (s : State) (d : RegIndex) (a : Word) :
    s.loadInto d a = (s.note (.read a (s.readMem a))).writeResult d (s.readMem a) := rfl

/-! ### The trap port -/

/-- The registers after a handler's register writes: everything else is untouched. -/
theorem State.applyRegWrites_frame (ws : List (RegIndex × Word)) (s : State) :
    (s.applyRegWrites ws).pc = s.pc ∧ (s.applyRegWrites ws).cc = s.cc ∧ (s.applyRegWrites ws).mem = s.mem ∧
    (s.applyRegWrites ws).trapRegistry = s.trapRegistry ∧ (s.applyRegWrites ws).output = s.output ∧
    (s.applyRegWrites ws).trapDraws = s.trapDraws ∧ (s.applyRegWrites ws).config = s.config := by
  induction ws generalizing s with
  | nil => exact ⟨rfl, rfl, rfl, rfl, rfl, rfl, rfl⟩
  | cons w rest ih => exact ih (s.writeReg w.1 w.2)

theorem State.applyRegWrites_keeps (ws : List (RegIndex × Word)) (s : State) (r : RegIndex)
    (h : ∀ w ∈ ws, w.1 ≠ r) : (s.applyRegWrites ws).readReg r = s.readReg r := by
  induction ws generalizing s with
  | nil => rfl
  | cons w rest ih =>
    have hw : r ≠ w.1 := Ne.symm (h w (by simp))
    exact (ih (s.writeReg w.1 w.2) fun x hx => h x (by simp [hx])).trans (by simp [hw])

/-- The same for the memory writes. -/
theorem State.applyMemWrites_frame (ws : List (Word × Word)) (s : State) :
    (s.applyMemWrites ws).regs = s.regs ∧ (s.applyMemWrites ws).pc = s.pc ∧ (s.applyMemWrites ws).cc = s.cc ∧
    (s.applyMemWrites ws).trapRegistry = s.trapRegistry ∧ (s.applyMemWrites ws).output = s.output ∧
    (s.applyMemWrites ws).trapDraws = s.trapDraws ∧ (s.applyMemWrites ws).config = s.config := by
  induction ws generalizing s with
  | nil => exact ⟨rfl, rfl, rfl, rfl, rfl, rfl, rfl⟩
  | cons w rest ih => exact ih (s.writeMem w.1 w.2)

theorem State.applyMemWrites_keeps (ws : List (Word × Word)) (s : State) (a : Word)
    (h : ∀ w ∈ ws, w.1 ≠ a) : (s.applyMemWrites ws).readMem a = s.readMem a := by
  induction ws generalizing s with
  | nil => rfl
  | cons w rest ih =>
    have hw : a ≠ w.1 := Ne.symm (h w (by simp))
    exact (ih (s.writeMem w.1 w.2) fun x hx => h x (by simp [hx])).trans (by simp [hw])

/-- A handler's memory writes keep the canonical form. -/
theorem State.applyMemWrites_wf (ws : List (Word × Word)) (s : State) (h : Memory.wf s.mem) :
    Memory.wf (s.applyMemWrites ws).mem := by
  induction ws generalizing s with
  | nil => exact h
  | cons w rest ih => exact ih (s.writeMem w.1 w.2) (Memory.wf_write h w.1 w.2)

/-- What no reply of a handler can change (R101), and what it decides of the PC and the result. -/
theorem State.applyTrapReply_frame (r : TrapReply) (s : State) :
    (s.applyTrapReply r).pc = r.pcWrite.getD s.pc ∧ (s.applyTrapReply r).cc = s.cc ∧
    (s.applyTrapReply r).trapRegistry = s.trapRegistry ∧
    (s.applyTrapReply r).output.result = TrapOutcome.result r.outcome ∧
    (s.applyTrapReply r).output.transactions = s.output.transactions ∧
    (s.applyTrapReply r).trapDraws = s.trapDraws ∧ (s.applyTrapReply r).config = s.config := by
  obtain ⟨hpc, hcc, -, hreg, hout, hdr, hcfg⟩ := State.applyRegWrites_frame r.regWrites s
  obtain ⟨-, mpc, mcc, mreg, mout, mdr, mcfg⟩ :=
    State.applyMemWrites_frame r.memWrites (s.applyRegWrites r.regWrites)
  refine ⟨?_, mcc.trans hcc, mreg.trans hreg, rfl, ?_, mdr.trans hdr, mcfg.trans hcfg⟩
  · show r.pcWrite.getD ((s.applyRegWrites r.regWrites).applyMemWrites r.memWrites).pc = _
    rw [mpc, hpc]
  · show ((s.applyRegWrites r.regWrites).applyMemWrites r.memWrites).output.transactions = _
    rw [mout, hout]

/-- The registers after a reply are those after its register writes. -/
theorem State.applyTrapReply_readReg (r : TrapReply) (s : State) (i : RegIndex) :
    (s.applyTrapReply r).readReg i = (s.applyRegWrites r.regWrites).readReg i :=
  State.readReg_congr (State.applyMemWrites_frame r.memWrites (s.applyRegWrites r.regWrites)).1 i

/-- The memory after a reply is that after its memory writes. -/
theorem State.applyTrapReply_mem (r : TrapReply) (s : State) :
    (s.applyTrapReply r).mem = ((s.applyRegWrites r.regWrites).applyMemWrites r.memWrites).mem := rfl

/-- A reply reads no flags: applied under other flags it does the same, and leaves those flags (R101). -/
theorem State.applyTrapReply_otherFlags (r : TrapReply) (c : BitVec 3) (s : State) :
    ({ s with cc := c } : State).applyTrapReply r = { s.applyTrapReply r with cc := c } := by
  have regs : ∀ ws (u : State), ({ u with cc := c } : State).applyRegWrites ws = { u.applyRegWrites ws with cc := c } := by
    intro ws
    induction ws with
    | nil => exact fun _ => rfl
    | cons w _ ih => exact fun u => ih (u.writeReg w.1 w.2)
  have cells : ∀ ws (u : State), ({ u with cc := c } : State).applyMemWrites ws = { u.applyMemWrites ws with cc := c } := by
    intro ws
    induction ws with
    | nil => exact fun _ => rfl
    | cons w _ ih => exact fun u => ih (u.writeMem w.1 w.2)
  simp only [State.applyTrapReply, regs, cells]

/-! ### The meanings: one equation for each arm of `exec` -/

@[simp] theorem exec_br (mask : BitVec 3) (off : Word) (s : State) :
    exec (.br mask off) s = .next (s.setPc (bif branchTaken mask s.cc then pcRelative off s else s.pc)) := rfl
@[simp] theorem exec_addReg (d a b : RegIndex) (s : State) :
    exec (.addReg d a b) s = .next (s.writeResult d (s.readReg a + s.readReg b)) := rfl
@[simp] theorem exec_addImm (d a : RegIndex) (imm : Word) (s : State) :
    exec (.addImm d a imm) s = .next (s.writeResult d (s.readReg a + imm)) := rfl
@[simp] theorem exec_andReg (d a b : RegIndex) (s : State) :
    exec (.andReg d a b) s = .next (s.writeResult d (s.readReg a &&& s.readReg b)) := rfl
@[simp] theorem exec_andImm (d a : RegIndex) (imm : Word) (s : State) :
    exec (.andImm d a imm) s = .next (s.writeResult d (s.readReg a &&& imm)) := rfl
@[simp] theorem exec_not (d a : RegIndex) (s : State) :
    exec (.not d a) s = .next (s.writeResult d (s.readReg a ^^^ 0xFFFF)) := rfl
@[simp] theorem exec_ld (d : RegIndex) (off : Word) (s : State) :
    exec (.ld d off) s = .next (s.loadInto d (pcRelative off s)) := rfl
@[simp] theorem exec_ldi (d : RegIndex) (off : Word) (s : State) :
    exec (.ldi d off) s =
      .next ((s.note (.read (pcRelative off s) (indirectAddress off s))).loadInto d (indirectAddress off s)) := rfl
@[simp] theorem exec_ldr (d b : RegIndex) (off : Word) (s : State) :
    exec (.ldr d b off) s = .next (s.loadInto d (baseOffset b off s)) := rfl
@[simp] theorem exec_lea (d : RegIndex) (off : Word) (s : State) :
    exec (.lea d off) s = .next (s.writeResult d (pcRelative off s)) := rfl
@[simp] theorem exec_st (r : RegIndex) (off : Word) (s : State) :
    exec (.st r off) s = .next (s.portWrite (pcRelative off s) (s.readReg r)) := rfl
@[simp] theorem exec_sti (r : RegIndex) (off : Word) (s : State) :
    exec (.sti r off) s =
      .next ((s.note (.read (pcRelative off s) (indirectAddress off s))).portWrite
        (indirectAddress off s) (s.readReg r)) := rfl
@[simp] theorem exec_str (r b : RegIndex) (off : Word) (s : State) :
    exec (.str r b off) s = .next (s.portWrite (baseOffset b off s) (s.readReg r)) := rfl
@[simp] theorem exec_jmp (b : RegIndex) (s : State) : exec (.jmp b) s = .next (s.setPc (s.readReg b)) := rfl
@[simp] theorem exec_jsr (off : Word) (s : State) :
    exec (.jsr off) s = .next ((s.writeReg 7 s.pc).setPc (pcRelative off s)) := rfl
@[simp] theorem exec_jsrr (b : RegIndex) (s : State) :
    exec (.jsrr b) s = .next ((s.writeReg 7 s.pc).setPc
      (bif s.config.jsrrReadsBaseFirst then s.readReg b else (s.writeReg 7 s.pc).readReg b)) := rfl
@[simp] theorem exec_rti (s : State) : exec .rti s = .next s.raiseUnimplementedOpcode := rfl
@[simp] theorem exec_reserved (s : State) : exec .reserved s = .next s.raiseUnimplementedOpcode := rfl
theorem exec_trap_registered {s : State} {v : TrapVector} {h : HandlerId} (hv : s.trapHandler v = some h) :
    exec (.trap v) s = .next (s.trapRequest h v) := by
  show execTrap v s = _
  simp [execTrap, hv]
theorem exec_trap_unregistered {s : State} {v : TrapVector} (hv : s.trapHandler v = none) :
    exec (.trap v) s = .next s.raiseUnimplementedOpcode := by
  show execTrap v s = _
  simp [execTrap, hv]

/-- A step is the meaning of the fetched word on the advanced state. -/
theorem step_eq_exec (s : State) : step s = exec (decode s.fetchWord) s.beginStep := rfl

/-- After the advance, the fault record names the word and the address the step fetched (R110). -/
theorem State.beginStep_faultRecord (s : State) :
    s.beginStep.raiseUnimplementedOpcode.output.result = .fault (.unimplementedOpcode s.fetchWord s.pc) := by
  simp [State.fetchWord]

theorem nextState_of_step {s t : State} (h : step s = .next t) : nextState s = t := by
  simp [nextState, h]

end Sys2Proof.Machine
end

