-- ==== Sys2Proof/Laws/PerInstr.lean ====
section
/-! SUPPORT. The family TableRow, one lemma for each constructor: the word the encoder gives an instruction lies in that
instruction's own row of spec/opcode_table.json. -/

namespace Sys2Proof.Laws

/-- The `mask` of the instruction's row in spec/opcode_table.json. -/
def TableRow.mask : Instr → Word
  | .br _ _ => 0xF000
  | .addReg _ _ _ => 0xF020
  | .addImm _ _ _ => 0xF020
  | .ld _ _ => 0xF000
  | .st _ _ => 0xF000
  | .jsrr _ => 0xF800
  | .jsr _ => 0xF800
  | .andReg _ _ _ => 0xF020
  | .andImm _ _ _ => 0xF020
  | .ldr _ _ _ => 0xF000
  | .str _ _ _ => 0xF000
  | .rti => 0xF000
  | .not _ _ => 0xF000
  | .ldi _ _ => 0xF000
  | .sti _ _ => 0xF000
  | .jmp _ => 0xF000
  | .reserved => 0xF000
  | .lea _ _ => 0xF000
  | .trap _ => 0xF000

/-- The `match` of the instruction's row in spec/opcode_table.json. -/
def TableRow.pattern : Instr → Word
  | .br _ _ => 0x0000
  | .addReg _ _ _ => 0x1000
  | .addImm _ _ _ => 0x1020
  | .ld _ _ => 0x2000
  | .st _ _ => 0x3000
  | .jsrr _ => 0x4000
  | .jsr _ => 0x4800
  | .andReg _ _ _ => 0x5000
  | .andImm _ _ _ => 0x5020
  | .ldr _ _ _ => 0x6000
  | .str _ _ _ => 0x7000
  | .rti => 0x8000
  | .not _ _ => 0x9000
  | .ldi _ _ => 0xA000
  | .sti _ _ => 0xB000
  | .jmp _ => 0xC000
  | .reserved => 0xD000
  | .lea _ _ => 0xE000
  | .trap _ => 0xF000

/-- The encoder's word matches the instruction's row of the table. -/
def TableRow.Statement (i : Instr) : Prop :=
  ∀ w, encode i = some w → w &&& TableRow.mask i = TableRow.pattern i

theorem TableRow.br (mask : BitVec 3) (off : Word) : TableRow.Statement (.br mask off) := by
  intro w h
  obtain rfl := Option.some.inj h
  apply BitVec.eq_of_getLsbD_eq
  intro i hi
  interval_cases i <;>
    simp [TableRow.mask, TableRow.pattern, getLsbD_placed, -BitVec.getLsbD_eq_getElem]

theorem TableRow.addReg (d a b : RegIndex) : TableRow.Statement (.addReg d a b) := by
  intro w h
  obtain rfl := Option.some.inj h
  apply BitVec.eq_of_getLsbD_eq
  intro i hi
  interval_cases i <;>
    simp [TableRow.mask, TableRow.pattern, getLsbD_placed, -BitVec.getLsbD_eq_getElem]

theorem TableRow.addImm (d a : RegIndex) (imm : Word) : TableRow.Statement (.addImm d a imm) := by
  intro w h
  obtain rfl := Option.some.inj h
  apply BitVec.eq_of_getLsbD_eq
  intro i hi
  interval_cases i <;>
    simp [TableRow.mask, TableRow.pattern, getLsbD_placed, -BitVec.getLsbD_eq_getElem]

theorem TableRow.ld (d : RegIndex) (off : Word) : TableRow.Statement (.ld d off) := by
  intro w h
  obtain rfl := Option.some.inj h
  apply BitVec.eq_of_getLsbD_eq
  intro i hi
  interval_cases i <;>
    simp [TableRow.mask, TableRow.pattern, getLsbD_placed, -BitVec.getLsbD_eq_getElem]

theorem TableRow.st (r : RegIndex) (off : Word) : TableRow.Statement (.st r off) := by
  intro w h
  obtain rfl := Option.some.inj h
  apply BitVec.eq_of_getLsbD_eq
  intro i hi
  interval_cases i <;>
    simp [TableRow.mask, TableRow.pattern, getLsbD_placed, -BitVec.getLsbD_eq_getElem]

theorem TableRow.jsrr (b : RegIndex) : TableRow.Statement (.jsrr b) := by
  intro w h
  obtain rfl := Option.some.inj h
  apply BitVec.eq_of_getLsbD_eq
  intro i hi
  interval_cases i <;>
    simp [TableRow.mask, TableRow.pattern, getLsbD_placed, -BitVec.getLsbD_eq_getElem]

theorem TableRow.jsr (off : Word) : TableRow.Statement (.jsr off) := by
  intro w h
  obtain rfl := Option.some.inj h
  apply BitVec.eq_of_getLsbD_eq
  intro i hi
  interval_cases i <;>
    simp [TableRow.mask, TableRow.pattern, getLsbD_placed, -BitVec.getLsbD_eq_getElem]

theorem TableRow.andReg (d a b : RegIndex) : TableRow.Statement (.andReg d a b) := by
  intro w h
  obtain rfl := Option.some.inj h
  apply BitVec.eq_of_getLsbD_eq
  intro i hi
  interval_cases i <;>
    simp [TableRow.mask, TableRow.pattern, getLsbD_placed, -BitVec.getLsbD_eq_getElem]

theorem TableRow.andImm (d a : RegIndex) (imm : Word) : TableRow.Statement (.andImm d a imm) := by
  intro w h
  obtain rfl := Option.some.inj h
  apply BitVec.eq_of_getLsbD_eq
  intro i hi
  interval_cases i <;>
    simp [TableRow.mask, TableRow.pattern, getLsbD_placed, -BitVec.getLsbD_eq_getElem]

theorem TableRow.ldr (d b : RegIndex) (off : Word) : TableRow.Statement (.ldr d b off) := by
  intro w h
  obtain rfl := Option.some.inj h
  apply BitVec.eq_of_getLsbD_eq
  intro i hi
  interval_cases i <;>
    simp [TableRow.mask, TableRow.pattern, getLsbD_placed, -BitVec.getLsbD_eq_getElem]

theorem TableRow.str (r b : RegIndex) (off : Word) : TableRow.Statement (.str r b off) := by
  intro w h
  obtain rfl := Option.some.inj h
  apply BitVec.eq_of_getLsbD_eq
  intro i hi
  interval_cases i <;>
    simp [TableRow.mask, TableRow.pattern, getLsbD_placed, -BitVec.getLsbD_eq_getElem]

theorem TableRow.rti : TableRow.Statement .rti := by
  intro w h
  obtain rfl := Option.some.inj h
  rfl

theorem TableRow.not (d a : RegIndex) : TableRow.Statement (.not d a) := by
  intro w h
  obtain rfl := Option.some.inj h
  apply BitVec.eq_of_getLsbD_eq
  intro i hi
  interval_cases i <;>
    simp [TableRow.mask, TableRow.pattern, getLsbD_placed, -BitVec.getLsbD_eq_getElem]

theorem TableRow.ldi (d : RegIndex) (off : Word) : TableRow.Statement (.ldi d off) := by
  intro w h
  obtain rfl := Option.some.inj h
  apply BitVec.eq_of_getLsbD_eq
  intro i hi
  interval_cases i <;>
    simp [TableRow.mask, TableRow.pattern, getLsbD_placed, -BitVec.getLsbD_eq_getElem]

theorem TableRow.sti (r : RegIndex) (off : Word) : TableRow.Statement (.sti r off) := by
  intro w h
  obtain rfl := Option.some.inj h
  apply BitVec.eq_of_getLsbD_eq
  intro i hi
  interval_cases i <;>
    simp [TableRow.mask, TableRow.pattern, getLsbD_placed, -BitVec.getLsbD_eq_getElem]

theorem TableRow.jmp (b : RegIndex) : TableRow.Statement (.jmp b) := by
  intro w h
  obtain rfl := Option.some.inj h
  apply BitVec.eq_of_getLsbD_eq
  intro i hi
  interval_cases i <;>
    simp [TableRow.mask, TableRow.pattern, getLsbD_placed, -BitVec.getLsbD_eq_getElem]

theorem TableRow.reserved : TableRow.Statement .reserved := by
  intro w h
  cases h

theorem TableRow.lea (d : RegIndex) (off : Word) : TableRow.Statement (.lea d off) := by
  intro w h
  obtain rfl := Option.some.inj h
  apply BitVec.eq_of_getLsbD_eq
  intro i hi
  interval_cases i <;>
    simp [TableRow.mask, TableRow.pattern, getLsbD_placed, -BitVec.getLsbD_eq_getElem]

theorem TableRow.trap (v : TrapVector) : TableRow.Statement (.trap v) := by
  intro w h
  obtain rfl := Option.some.inj h
  apply BitVec.eq_of_getLsbD_eq
  intro i hi
  interval_cases i <;>
    simp [TableRow.mask, TableRow.pattern, getLsbD_placed, -BitVec.getLsbD_eq_getElem]

end Sys2Proof.Laws
end

