-- ==== Sys2Proof/Tests/Slice0.lean ====
section
/-! SUPPORT. Small tests of one decoding or one step each. Expected values are the spec's: its vectors V<n> in
spec/95_test_vectors.md, its encoders (R59) or its ranges (R47). The last part shows a state that meets the hypotheses
of each statement. -/

namespace Sys2Proof.Tests

open Sys2Proof.Machine

/-- The reset machine with the word `w` at `a` and the PC there. -/
def at_ (a w : Word) : State := (State.reset.setPc a).writeMem a w

/-- The same with the flags set, for vectors that state a `cc` before. -/
def withCc (c : BitVec 3) (s : State) : State := { s with cc := c }

/-- What the vectors show of a general register, `cc` and `pc` after one step. -/
def shows (s : State) (r : RegIndex) (v : Word) (c : BitVec 3) (pc : Word) : Bool :=
  (nextState s).readReg r == v && (nextState s).cc == c && (nextState s).pc == pc

/-! ### WellFormed: for each check a term just out of range, refused -/

theorem test_wf_br : (Instr.br 7 256).wf = false := by decide
theorem test_wf_addImm : (Instr.addImm 0 0 16).wf = false := by decide
theorem test_wf_andImm : (Instr.andImm 0 0 0xFFEF).wf = false := by decide
theorem test_wf_ld : (Instr.ld 0 0xFEFF).wf = false := by decide
theorem test_wf_ldi : (Instr.ldi 0 256).wf = false := by decide
theorem test_wf_lea : (Instr.lea 0 0x8000).wf = false := by decide
theorem test_wf_st : (Instr.st 0 256).wf = false := by decide
theorem test_wf_sti : (Instr.sti 0 0xFEFF).wf = false := by decide
theorem test_wf_ldr : (Instr.ldr 0 0 32).wf = false := by decide
theorem test_wf_str : (Instr.str 0 0 0xFFDF).wf = false := by decide
theorem test_wf_jsr : (Instr.jsr 1024).wf = false := by decide
theorem test_wf_boundaries : (Instr.jsr 0xFC00).wf = true ∧ (Instr.addImm 0 0 0xFFF0).wf = true ∧
    (Instr.ldr 0 0 31).wf = true ∧ (Instr.br 0 0xFF00).wf = true := by decide

/-! ### Decode: a word of each row of the table, written bit by bit from R44 -/

theorem test_decode_br : decode 0b0000_010_000000101 = .br 0b010 5 := by decide                        -- V7
theorem test_decode_addReg : decode 0b0001_001_010_0_11_011 = .addReg 1 2 3 := by decide                -- V4
theorem test_decode_addImm : decode 0b0001_001_000_1_00000 = .addImm 1 0 0 := by decide                 -- V1
theorem test_decode_ld : decode 0b0010_001_100000000 = .ld 1 0xFF00 := by decide                        -- V204's word
theorem test_decode_st : decode 0b0011_111_100000000 = .st 7 0xFF00 := by decide                        -- V234's word
theorem test_decode_jsrr : decode 0b0100_0_11_010_111111 = .jsrr 2 := by decide                         -- V12
theorem test_decode_jsr : decode 0b0100_1_11111111111 = .jsr 0xFFFF := by decide                        -- V10
theorem test_decode_andReg : decode 0b0101_001_010_0_00_011 = .andReg 1 2 3 := by decide                -- V113's word
theorem test_decode_andImm : decode 0b0101_000_000_1_00000 = .andImm 0 0 0 := by decide                 -- V2
theorem test_decode_ldr : decode 0b0110_111_001_111111 = .ldr 7 1 0xFFFF := by decide                   -- V15
theorem test_decode_str : decode 0b0111_001_010_100000 = .str 1 2 0xFFE0 := by decide                   -- V245's word
theorem test_decode_rti : decode 0b1000_101010111100 = .rti := by decide                                -- V19
theorem test_decode_not : decode 0b1001_001_010_000000 = .not 1 2 := by decide                          -- V6
theorem test_decode_ldi : decode 0b1010_001_000000001 = .ldi 1 1 := by decide                           -- V207's word
theorem test_decode_sti : decode 0b1011_000_111111111 = .sti 0 0xFFFF := by decide                      -- V16
theorem test_decode_jmp : decode 0b1100_111_011_111111 = .jmp 3 := by decide                            -- V14
theorem test_decode_reserved : decode 0b1101_111111111111 = .reserved := by decide                      -- V20
theorem test_decode_lea : decode 0b1110_000_111111111 = .lea 0 0xFFFF := by decide                      -- V219's word
theorem test_decode_trap : decode 0b1111_1111_00100101 = .trap 0x25 := by decide                        -- V18

/-! ### Encode: the canonical words of the vectors -/

theorem test_encode_filler : encode (.not 1 2) = some 0x92BF ∧ encode (.jmp 7) = some 0xC1C0 ∧
    encode (.jsrr 2) = some 0x4080 ∧ encode (.addReg 1 2 3) = some 0x1283 := by decide      -- V3, V6, V12, V13
theorem test_encode_offsets : encode (.br 7 0xFFFF) = some 0x0FFF ∧ encode (.jsr 0xFC00) = some 0x4C00 ∧
    encode (.str 1 2 0xFFE0) = some 0x72A0 ∧ encode .reserved = none := by decide           -- V9, V48, V245, V20

/-! ### One step: ADD, AND, NOT -/

theorem test_addReg_overflow :                                                                          -- V100
    shows (((at_ 0x3000 0x1283).writeReg 2 0x7FFF).writeReg 3 1) 1 0x8000 0b100 0x3001 = true := by decide
theorem test_addReg_same_register :                                                                     -- V104
    shows ((at_ 0x3000 0x1241).writeReg 1 0xC000) 1 0x8000 0b100 0x3001 = true := by decide
theorem test_addImm_minus_16 :                                                                          -- V108
    shows ((at_ 0x3000 0x12B0).writeReg 2 0x000F) 1 0xFFFF 0b100 0x3001 = true := by decide
theorem test_addImm_pc_wraps : shows (at_ 0xFFFF 0x1021) 0 1 0b001 0x0000 = true := by decide            -- V403
theorem test_andReg :                                                                                   -- V113
    shows (((at_ 0x3000 0x5283).writeReg 2 0xF0F0).writeReg 3 0x0FF0) 1 0x00F0 0b001 0x3001 = true := by decide
theorem test_andImm_minus_16 :                                                                          -- V118
    shows ((at_ 0x3000 0x52B0).writeReg 2 0xABCD) 1 0xABC0 0b100 0x3001 = true := by decide
theorem test_not_filler :                                                                               -- V126
    shows ((at_ 0x3000 0x9280).writeReg 2 0x00FF) 1 0xFF00 0b100 0x3001 = true := by decide
theorem test_not_to_zero :                                                                              -- V122
    shows (((at_ 0x3000 0x92BF).writeReg 2 0xFFFF).writeReg 1 0x1111) 1 0 0b010 0x3001 = true := by decide

/-! ### One step: loads, LEA and stores -/

theorem test_ld_own_word : shows (at_ 0xFFFF 0x23FF) 1 0x23FF 0b001 0x0000 = true := by decide           -- V202
theorem test_ld_backwards :                                                                             -- V204
    shows ((at_ 0x3000 0x2300).writeMem 0x2F01 0x7FFF) 1 0x7FFF 0b001 0x3001 = true := by decide
theorem test_ldi_value_not_pointer :                                                                    -- V207
    shows (((at_ 0x3000 0xA201).writeReg 1 0x1111).writeMem 0x3002 0x4000) 1 0 0b010 0x3001 = true := by decide
theorem test_ldi_wrapped_pointer :                                                                      -- V209
    shows ((at_ 0xFFFF 0xA200).writeMem 0x0000 0xFFFF) 1 0xA200 0b100 0x0000 = true := by decide
theorem test_ldr_base_is_destination :                                                                  -- V213
    shows (((at_ 0x3000 0x6240).writeReg 1 0x5000).writeMem 0x5000 0x5001) 1 0x5001 0b001 0x3001 = true := by decide
theorem test_ldr_wraps :                                                                                -- V216
    shows (((at_ 0x3000 0x6282).writeReg 2 0xFFFF).writeMem 1 0xABCD) 1 0xABCD 0b100 0x3001 = true := by decide
theorem test_lea_zero :                                                                                 -- V218
    shows ((at_ 0xFFFF 0xE000).writeReg 0 0x1111) 0 0 0b010 0x0000 = true := by decide
theorem test_lea_negative : shows (at_ 0x8000 0xE1FF) 0 0x8000 0b100 0x8001 = true := by decide          -- V219
theorem test_st_keeps_flags :                                                                           -- V232
    shows (withCc 0b100 ((at_ 0xFFFF 0x3200).writeReg 1 0x1234)) 1 0x1234 0b100 0x0000 = true ∧
    (nextState ((at_ 0xFFFF 0x3200).writeReg 1 0x1234)).readMem 0 = 0x1234 := by decide
theorem test_st_own_cell : (nextState (at_ 0x3000 0x33FF)).mem = [] := by decide                         -- V231
theorem test_sti_pointer_to_itself :                                                                    -- V239
    (nextState (((at_ 0x3000 0xB201).writeReg 1 0x1234).writeMem 0x3002 0x3002)).readMem 0x3002 = 0x1234 := by decide
theorem test_sti_traffic :                                                                              -- V240
    (nextState ((at_ 0x3000 0xB3FF).writeReg 1 0x1234)).output.transactions =
      [.read 0x3000 0xB3FF, .read 0x3000 0xB3FF, .write 0xB3FF 0x1234] := by decide
theorem test_str_wraps :                                                                                -- V243
    (nextState (((at_ 0x3000 0x7282).writeReg 1 0x1234).writeReg 2 0xFFFF)).readMem 1 = 0x1234 := by decide
theorem test_str_minus_32 :                                                                             -- V245
    (nextState (((at_ 0x3000 0x72A0).writeReg 1 1).writeReg 2 0x0010)).readMem 0xFFF0 = 1 := by decide

/-! ### One step: transfers of control -/

theorem test_br_wraps : (nextState (withCc 0b001 (at_ 0xFFFF 0x03FE))).pc = 0xFFFE := by decide          -- V33
theorem test_br_no_flag : (nextState (at_ 0x3000 0x0FFF)).pc = 0x3001 := by decide                       -- V32
theorem test_jmp_filler : (nextState ((at_ 0x3000 0xCEFF).writeReg 3 0x1234)).pc = 0x1234 := by decide   -- V43
theorem test_ret : (nextState ((at_ 0x3005 0xC1C0).writeReg 7 0x3002)).pc = 0x3002 := by decide          -- V41
theorem test_jsr_wraps :                                                                                -- V50
    shows (withCc 0b010 ((at_ 0xFFFF 0x4801).writeReg 7 0x5555)) 7 0x0000 0b010 0x0001 = true := by decide
theorem test_jsr_backwards : shows (at_ 0x3000 0x4C00) 7 0x3001 0b000 0x2C01 = true := by decide         -- V48
theorem test_jsrr_r7 :                                                                                  -- V53
    shows ((at_ 0x3000 0x41C0).writeReg 7 0x4000) 7 0x3001 0b000 0x3001 = true := by decide
theorem test_jsrr_r7_base_first :                                                                       -- V54
    shows { (at_ 0x3000 0x41C0).writeReg 7 0x4000 with
      config := { jsrrReadsBaseFirst := true, continueOnFault := false } } 7 0x3001 0b000 0x4000 = true := by decide

/-! ### One step: TRAP, RTI, the reserved opcode -/

theorem test_trap_unregistered :                                                                        -- V301
    (nextState (at_ 0x3000 0xFF25)).output.result = .fault (.unimplementedOpcode 0xFF25 0x3000) ∧
    (nextState (at_ 0x3000 0xFF25)).pc = 0x3001 := by decide
theorem test_rti_at_the_top :                                                                           -- V308
    (nextState (at_ 0xFFFF 0x8000)).output.result = .fault (.unimplementedOpcode 0x8000 0xFFFF) ∧
    (nextState (at_ 0xFFFF 0x8000)).pc = 0x0000 := by decide
theorem test_reserved :                                                                                 -- V307
    (nextState (at_ 0x3000 0xDFFF)).output.result = .fault (.unimplementedOpcode 0xDFFF 0x3000) ∧
    (nextState (at_ 0x3000 0xDFFF)).pc = 0x3001 := by decide
/-- The effect of V310, "changes nothing and returns `halt`", applied. -/
theorem test_reply_halt :
    (State.reset.applyTrapReply
      { regWrites := [], memWrites := [], pcWrite := none, outcome := .halts }).output.result = .halt := by decide
/-- The effect of V314, `R[7] <- pc; pc <- MemRead(0x0030, 1)` with `M[0x0030] = 0x0400`, applied at `pc = 0x3001`. -/
theorem test_reply_like_the_textbook :
    ((State.reset.setPc 0x3001).applyTrapReply
      { regWrites := [(7, 0x3001)], memWrites := [], pcWrite := some 0x0400, outcome := .continues }).pc = 0x0400 ∧
    ((State.reset.setPc 0x3001).applyTrapReply
      { regWrites := [(7, 0x3001)], memWrites := [], pcWrite := some 0x0400, outcome := .continues }).readReg 7
        = 0x3001 := by decide

/-! ### Reset and the host port -/

theorem test_reset_step : (nextState State.reset).pc = 1 ∧ (nextState State.reset).cc = 0 ∧               -- V400
    (nextState State.reset).output.result = .success := by decide
theorem test_load_wraps : (load 0xFFFF [0x1111, 0x2222, 0x3333] State.reset).mem =                       -- V500
    [(0, 0x2222), (1, 0x3333), (0xFFFF, 0x1111)] := by decide
theorem test_setRegister : (setRegister 9 0x12345 State.reset).readReg 1 = 0x2345 := by decide           -- V502
theorem test_setMemory : getMemory 1 (setMemory 0x10001 0x1FFFF State.reset) = 0xFFFF := by decide       -- V504
theorem test_setProgramCounter :                                                                        -- V505
    getProgramCounter (setProgramCounter 0x13000 State.reset) = 0x3000 := by decide
theorem test_reregistration :                                                                           -- V513
    (registerTrapHandler 0x25 2 (registerTrapHandler 0x25 1 State.reset)).trapHandler 0x25 = some 2 := by decide
theorem test_run_stops_on_fault :                                                                       -- V507
    (run 10 (setProgramCounter 0x3000 (load 0x3000 [0xD000, 0x1021] State.reset))).ending =
      .faulted (.unimplementedOpcode 0xD000 0x3000) ∧
    (run 10 (setProgramCounter 0x3000 (load 0x3000 [0xD000, 0x1021] State.reset))).steps = 1 := by decide
theorem test_memory_canonical : Memory.write (Memory.write [] 5 7) 5 0 = [] ∧ ¬ Memory.wf [(5, 0)] ∧
    ¬ Memory.wf [(6, 1), (5, 1)] ∧ ¬ Memory.wf [(65536, 1)] := by decide
theorem test_table_word : decodeTableWord 16 0x903F = some (.not 0 0) ∧ decodeTableWord 16 0xD000 = some .reserved := by
  decide

/-! ### Witnesses: for each statement with hypotheses, operands and states that meet them -/

theorem witness_DecodeOfEncode : (Instr.addImm 7 7 0xFFF0).wf = true ∧
    encode (.addImm 7 7 0xFFF0) = some 0x1FF0 ∧ (Instr.jsr 1023).wf = true ∧ encode (.jsr 1023) = some 0x4BFF := by decide
theorem witness_EncodeOfDecode : field (0x9280 : Word) 12 4 ≠ 0b1101 := by decide
/-- One pair of words for each clause. -/
theorem witness_IgnoredBits :
    (field (0x129B : Word) 12 4 = field (0x1283 : Word) 12 4 ∧ field (0x129B : Word) 12 4 = 0b0001 ∧
      (0x129B : Word).getLsbD 5 = false ∧ (0x1283 : Word).getLsbD 5 = false ∧
      field (0x129B : Word) 6 6 = field (0x1283 : Word) 6 6 ∧ field (0x129B : Word) 0 3 = field (0x1283 : Word) 0 3) ∧
    (field (0x9280 : Word) 12 4 = 0b1001 ∧ field (0x9280 : Word) 6 6 = field (0x92BF : Word) 6 6) ∧
    (field (0xCEFF : Word) 12 4 = 0b1100 ∧ field (0xCEFF : Word) 6 3 = field (0xC0C0 : Word) 6 3) ∧
    (field (0x46BF : Word) 12 4 = 0b0100 ∧ (0x46BF : Word).getLsbD 11 = false ∧
      field (0x46BF : Word) 6 3 = field (0x4080 : Word) 6 3) ∧
    (field (0xFF25 : Word) 12 4 = 0b1111 ∧ field (0xFF25 : Word) 0 8 = field (0xF025 : Word) 0 8) ∧
    field (0x8ABC : Word) 12 4 = field (0x8000 : Word) 12 4 ∧ field (0xDFFF : Word) 12 4 = 0b1101 := by decide
theorem witness_SignExtension : (0b10000 : BitVec 5).getLsbD 4 = true ∧ (0b01111 : BitVec 5).getLsbD 4 = false := by decide
theorem witness_StepExecutes : decode (State.reset.readMem State.reset.pc) = .br 0 0 := by decide
/-- An opcode and its mode bit, as the decoding clauses of the instruction statements assume them. -/
theorem witness_OpcodeAndMode :
    (field (0x1FE1 : Word) 12 4 = 0b0001 ∧ (0x1FE1 : Word).getLsbD 5 = true) ∧
    (field (0x1000 : Word) 12 4 = 0b0001 ∧ (0x1000 : Word).getLsbD 5 = false) ∧
    (field (0x52BF : Word) 12 4 = 0b0101 ∧ (0x52BF : Word).getLsbD 5 = true) ∧
    (field (0x5282 : Word) 12 4 = 0b0101 ∧ (0x5282 : Word).getLsbD 5 = false) ∧
    (field (0x4FFF : Word) 12 4 = 0b0100 ∧ (0x4FFF : Word).getLsbD 11 = true) ∧
    (field (0x47FF : Word) 12 4 = 0b0100 ∧ (0x47FF : Word).getLsbD 11 = false) := by decide
theorem witness_Opcode : field (0x0FFF : Word) 12 4 = 0b0000 ∧ field (0x23FF : Word) 12 4 = 0b0010 ∧
    field (0x3F00 : Word) 12 4 = 0b0011 ∧ field (0x6E7F : Word) 12 4 = 0b0110 ∧ field (0x72A0 : Word) 12 4 = 0b0111 ∧
    field (0x8000 : Word) 12 4 = 0b1000 ∧ field (0x903F : Word) 12 4 = 0b1001 ∧ field (0xA200 : Word) 12 4 = 0b1010 ∧
    field (0xB1FF : Word) 12 4 = 0b1011 ∧ field (0xC1C0 : Word) 12 4 = 0b1100 ∧ field (0xD000 : Word) 12 4 = 0b1101 ∧
    field (0xEEFF : Word) 12 4 = 0b1110 ∧ field (0xF0FF : Word) 12 4 = 0b1111 := by decide
theorem witness_Addresses : State.reset.pc = 0x0000 ∧ (State.reset.writeReg 2 0xFFFF).readReg 2 = 0xFFFF ∧ (State.reset.setPc 0xFFFF).pc = 0xFFFF := by
  decide
theorem witness_StoreAddresses : pcRelative 0xFFFF (State.reset.setPc 0x3001) = 0x3000 ∧
    State.reset.readMem (pcRelative 0 State.reset) = 0 ∧ baseOffset 2 2 (State.reset.writeReg 2 0xFFFF) = 1 := by decide
theorem witness_BranchWithoutFlag : State.reset.cc = 0b000 := by decide
theorem witness_JsrrBase : (6 : RegIndex) ≠ 7 := by decide
theorem witness_TrapUnregistered : State.reset.trapHandler 0xFF = none := by decide
theorem witness_TrapRegistered : (registerTrapHandler 0xFF 1 State.reset).trapHandler 0xFF = some 1 := by decide
/-- A reply with a register and a cell written twice: the later write has none after it, and another place has none. -/
theorem witness_HandlerReply :
    ([(7, 1), (7, 2)] : List (RegIndex × Word)) = [(7, 1)] ++ (7, 2) :: [] ∧
    (∀ w ∈ ([(7, 1), (7, 2)] : List (RegIndex × Word)), w.1 ≠ 0) ∧
    ([(5, 1), (5, 0)] : List (Word × Word)) = [(5, 1)] ++ (5, 0) :: [] ∧
    (∀ w ∈ ([(5, 1), (5, 0)] : List (Word × Word)), w.1 ≠ 0) := by
  refine ⟨rfl, ?_, rfl, ?_⟩ <;> simp

/-- A step that is the fetched word's meaning, as `withFetchWord` sets it up. -/
theorem test_withFetchWord : (State.reset.withFetchWord 16 0x1021).fetchWord = 0x1021 ∧
    (nextState (State.reset.withFetchWord 16 0x1021)).readReg 0 = 1 := by decide
/-- The next states of the statements about every step: the hypothesis `step s = .next t` is met. -/
theorem witness_StepAnswers : ∃ t, step State.reset = .next t := ⟨_, rfl⟩
/-- A flag-setting word, and a state in which a flag holds. -/
theorem witness_FlagSetting : flagSource (decode (at_ 0x3000 0xE1FF).fetchWord) = some 0 ∧
    flagSource (decode (at_ 0x3000 0x33FF).fetchWord) = none ∧ exactlyOneFlag (withCc 0b010 State.reset).cc := by decide
/-- A word for each clause of the statement about PC-relative addresses, a branch that is taken among them. -/
theorem witness_PcRelative :
    decode (at_ 0xFFFF 0x23FF).fetchWord = .ld 1 0xFFFF ∧ decode (at_ 0xFFFF 0xA200).fetchWord = .ldi 1 0 ∧
    decode (at_ 0xFFFF 0xE100).fetchWord = .lea 0 0xFF00 ∧ decode (at_ 0xFFFF 0x3F00).fetchWord = .st 7 0xFF00 ∧
    decode (at_ 0xFFFF 0xB1FF).fetchWord = .sti 0 0xFFFF ∧
    (decode (withCc 0b001 (at_ 0xFFFF 0x03FE)).fetchWord = .br 0b001 0xFFFE ∧
      (withCc 0b001 (at_ 0xFFFF 0x03FE)).cc &&& 0b001 ≠ 0) ∧
    decode (at_ 0xFFFF 0x4801).fetchWord = .jsr 1 ∧ decode (at_ 0xFFFF 0x4180).fetchWord = .jsrr 6 ∧
    decode (at_ 0xFFFF 0xC000).fetchWord = .jmp 0 := by decide
/-- A step that faults, for each cause. -/
theorem witness_Faulting : (nextState (at_ 0xFFFF 0xDFFF)).reportsFault = true ∧
    (nextState (at_ 0xFFFF 0x8000)).reportsFault = true ∧ (nextState (at_ 0xFFFF 0xF0FF)).reportsFault = true ∧
    (nextState (at_ 0xFFFF 0x0000)).reportsFault = false := by decide
theorem witness_FaultingStep : ∃ t, step (at_ 0xFFFF 0x8000) = .next t ∧ t.reportsFault = true := ⟨_, rfl, by decide⟩
theorem witness_NoHandlerCalled : callsHandler (decode (at_ 0x3000 0xF025).fetchWord) (at_ 0x3000 0xF025) = false ∧
    transfersControl (decode (at_ 0x3000 0xF025).fetchWord) = false := by decide
theorem witness_NotTrap (v : TrapVector) : decode State.reset.fetchWord ≠ .trap v := by
  rw [show decode State.reset.fetchWord = .br 0 0 by decide]
  simp
/-- At a TRAP that calls a handler, the flags as they are give the same reply. -/
theorem witness_SameReply (v : TrapVector) (h : HandlerId) :
    { (registerTrapHandler 0x25 1 (at_ 0x3000 0xF025)).beginStep with cc := 0b000 }.trapReply h v =
      (registerTrapHandler 0x25 1 (at_ 0x3000 0xF025)).beginStep.trapReply h v ∧
    decode (registerTrapHandler 0x25 1 (at_ 0x3000 0xF025)).fetchWord = .trap 0x25 ∧
    (registerTrapHandler 0x25 1 (at_ 0x3000 0xF025)).trapHandler 0x25 = some 1 := ⟨rfl, by decide, by decide⟩
theorem witness_NotBranch (m : BitVec 3) (off : Word) : decode (at_ 0x3000 0x1021).fetchWord ≠ .br m off := by
  rw [show decode (at_ 0x3000 0x1021).fetchWord = .addImm 0 0 1 by decide]
  simp
/-- Two states that differ in the model's own fields only, at a word that is not JSRR R7. -/
theorem witness_FivePieces :
    (∃ t, step (at_ 0x3000 0x1021) = .next t) ∧ (∃ t, step { at_ 0x3000 0x1021 with trapDraws := 5 } = .next t) ∧
    decode (at_ 0x3000 0x1021).fetchWord ≠ .jsrr 7 ∧
    callsHandler (decode (at_ 0x3000 0x1021).fetchWord) (at_ 0x3000 0x1021) = false :=
  ⟨⟨_, rfl⟩, ⟨_, rfl⟩, by decide, by decide⟩
/-- A store to the next instruction, V233. -/
theorem witness_NextFetch :
    storedCells (decode (at_ 0x3000 0x3200).fetchWord) (at_ 0x3000 0x3200).beginStep = [(at_ 0x3000 0x3200).pc + 1] := by
  decide
theorem witness_Invariant : State.Inv (at_ 0x3000 0x1021) := by decide
theorem witness_CanonicalMemory : Memory.wf [(0, 0x2222), (0xFFFF, 0x1111)] := by decide
/-- A block of two words: no later word falls on the first one's address, and an address outside the block. -/
theorem witness_Load : ∀ j, 0 < j → j < ([0x1111, 0x2222] : List Word).length → j % 65536 ≠ 0 % 65536 := by
  intro j h0 h
  simp at h
  omega
theorem witness_Load_outside : ∀ i, i < ([0x1111, 0x2222] : List Word).length →
    (0x0001 : Word) ≠ 0xFFFF + BitVec.ofNat 16 i := by decide
theorem witness_Accessors : 9 % 8 ≠ 7 % 8 ∧ 65536 % 65536 ≠ 65535 % 65536 ∧ (7 : RegIndex).toNat = 15 % 8 ∧
    (0xFFFF : Word).toNat = 131071 % 65536 := by decide
theorem witness_Registration : (0x24 : TrapVector) ≠ 0x25 := by decide
/-- Runs cut off by the budget without and with a fault tolerated, and one whose last budgeted step faults. -/
theorem witness_Run : 0 < 1 ∧ 1 < (run 2 State.reset).steps ∧ (run 2 State.reset).ending = .budgetExhausted none ∧
    (run 1 { at_ 0x3000 0x8000 with config := { jsrrReadsBaseFirst := false, continueOnFault := true } }).ending =
      .budgetExhausted (some (.unimplementedOpcode 0x8000 0x3000)) ∧
    (run 1 (at_ 0x3000 0x8000)).ending = .faulted (.unimplementedOpcode 0x8000 0x3000) := by decide

end Sys2Proof.Tests
end

section
/-! PROOFS. Sign extension in numbers (R8). -/

namespace Sys2Proof

/-- The number a sign-extended field holds: `2^16 - 2^n` is added exactly when the field's top bit is set (R8). -/
theorem toNat_sext {n : Nat} (h : n ≤ 16) (f : BitVec n) :
    (sext f).toNat = f.toNat + if f.getLsbD (n - 1) then 65536 - 2 ^ n else 0 := by
  have hfit : f.toNat < 2 ^ 16 := f.isLt.trans_le (Nat.pow_le_pow_right (by decide) h)
  rw [sext, BitVec.toNat_signExtend, BitVec.toNat_setWidth, Nat.mod_eq_of_lt hfit, BitVec.msb_eq_getLsbD_last]

/-- Settles O7, from the number `sext` holds and `2^n ≤ 65536`. -/
theorem signExtensionInNumbers : Obligations.SignExtensionInNumbers := by
  intro n f _ hn
  have hpow : 2 ^ n ≤ 2 ^ 16 := Nat.pow_le_pow_right (by decide) hn
  constructor
  · intro hclear
    rw [toNat_sext hn, hclear, if_neg Bool.false_ne_true, Nat.add_zero]
  · intro hset
    rw [toNat_sext hn, hset, if_pos rfl]
    exact (Nat.add_sub_assoc hpow f.toNat).symm

end Sys2Proof
end

section
/-! PROOFS. The effect of every instruction in six shapes. Each rule over all steps (invariant, frame) is one case
analysis over these shapes, in place of one over the nineteen instructions. -/

namespace Sys2Proof.Machine

/-! ### Several transactions noted at once -/

/-- Append a list of transactions to the step's record. -/
def State.noteAll (ts : List Transaction) (s : State) : State :=
  { s with output := { s.output with transactions := s.output.transactions ++ ts } }

@[simp] theorem State.noteAll_regs (ts : List Transaction) (s : State) : (s.noteAll ts).regs = s.regs := rfl
@[simp] theorem State.noteAll_pc (ts : List Transaction) (s : State) : (s.noteAll ts).pc = s.pc := rfl
@[simp] theorem State.noteAll_cc (ts : List Transaction) (s : State) : (s.noteAll ts).cc = s.cc := rfl
@[simp] theorem State.noteAll_mem (ts : List Transaction) (s : State) : (s.noteAll ts).mem = s.mem := rfl
@[simp] theorem State.noteAll_trapRegistry (ts : List Transaction) (s : State) :
    (s.noteAll ts).trapRegistry = s.trapRegistry := rfl
@[simp] theorem State.noteAll_result (ts : List Transaction) (s : State) :
    (s.noteAll ts).output.result = s.output.result := rfl
@[simp] theorem State.noteAll_transactions (ts : List Transaction) (s : State) :
    (s.noteAll ts).output.transactions = s.output.transactions ++ ts := rfl
@[simp] theorem State.noteAll_trapDraws (ts : List Transaction) (s : State) :
    (s.noteAll ts).trapDraws = s.trapDraws := rfl
@[simp] theorem State.noteAll_config (ts : List Transaction) (s : State) : (s.noteAll ts).config = s.config := rfl
@[simp] theorem State.noteAll_readReg (ts : List Transaction) (s : State) (r : RegIndex) :
    (s.noteAll ts).readReg r = s.readReg r := rfl
@[simp] theorem State.noteAll_readMem (ts : List Transaction) (s : State) (a : Word) :
    (s.noteAll ts).readMem a = s.readMem a := rfl

theorem State.noteAll_nil (s : State) : s.noteAll [] = s := by simp [State.noteAll]

theorem State.note_note (x y : Transaction) (s : State) : (s.note x).note y = s.noteAll [x, y] := by
  simp [State.note, State.noteAll]

theorem State.note_writeMem (x : Transaction) (a v : Word) (s : State) :
    (s.note x).writeMem a v = (s.writeMem a v).note x := rfl

theorem State.writeMem_noteAll (ts : List Transaction) (a v : Word) (s : State) :
    (s.writeMem a v).noteAll ts = (s.noteAll ts).writeMem a v := rfl

/-! ### The request on the trap port -/

/-- A call of a handler leaves the flags, the registry and the parameters (R101). -/
@[simp] theorem State.trapRequest_frame (h : HandlerId) (v : TrapVector) (s : State) :
    (s.trapRequest h v).cc = s.cc ∧ (s.trapRequest h v).trapRegistry = s.trapRegistry ∧
    (s.trapRequest h v).config = s.config := by
  obtain ⟨-, hcc, hreg, -, -, -, hcfg⟩ := State.applyTrapReply_frame (s.trapReply h v)
    { s.note (.trapRequest v) with trapDraws := s.trapDraws + 1 }
  exact ⟨hcc, hreg, hcfg⟩

/-- Whatever a handler replies, memory stays in canonical form. -/
theorem State.trapRequest_wf (h : HandlerId) (v : TrapVector) {s : State} (hm : Memory.wf s.mem) :
    Memory.wf (s.trapRequest h v).mem := by
  rw [State.trapRequest, State.applyTrapReply_mem]
  apply State.applyMemWrites_wf
  obtain ⟨-, -, hmem, -⟩ := State.applyRegWrites_frame (s.trapReply h v).regWrites
    { s.note (.trapRequest v) with trapDraws := s.trapDraws + 1 }
  rw [hmem]
  exact hm

/-! ### The six shapes -/

/-- What an instruction can do to the advanced state, with what the spec's tables say of the instruction (R12, R14,
R17, R30). -/
inductive Effect (i : Instr) (s : State) : State → Prop
  /-- The seven flag-setting instructions (R17, R70). -/
  | delivers (d : RegIndex) (v : Word) (hsrc : flagSource i = some d) (hreg : d ∈ writtenRegs i) :
      Effect i s ((s.noteAll (coreTraffic i s)).writeResult d v)
  /-- ST, STI and STR (R80). -/
  | stores (a v : Word) (hsrc : flagSource i = none) (hcell : a ∈ storedCells i s) :
      Effect i s ((s.noteAll (coreTraffic i s)).writeMem a v)
  /-- BR and JMP (R91, R92). -/
  | jumps (target : Word) (hsrc : flagSource i = none) (htr : transfersControl i = true) :
      Effect i s (s.setPc target)
  /-- JSR and JSRR (R93, R94). -/
  | links (target : Word) (hsrc : flagSource i = none) (hreg : 7 ∈ writtenRegs i)
      (htr : transfersControl i = true) : Effect i s ((s.writeReg 7 s.pc).setPc target)
  /-- RTI, the reserved opcode, and TRAP without a handler (R110). -/
  | faults (hsrc : flagSource i = none) : Effect i s s.raiseUnimplementedOpcode
  /-- TRAP with a handler (R101). -/
  | calls (v : TrapVector) (h : HandlerId) (htrap : i = .trap v) (hh : s.trapHandler v = some h) :
      Effect i s (s.trapRequest h v)

/-- A result computed without a data access (R30). -/
theorem Effect.delivers_untraced {i : Instr} {s : State} {d : RegIndex} {v : Word} (ht : coreTraffic i s = [])
    (hsrc : flagSource i = some d) (hreg : d ∈ writtenRegs i) : Effect i s (s.writeResult d v) := by
  have heff : Effect i s ((s.noteAll (coreTraffic i s)).writeResult d v) := .delivers d v hsrc hreg
  rwa [ht, State.noteAll_nil] at heff

/-- Every instruction answers a next state, by an effect of one of the six shapes. -/
theorem exec_effect (i : Instr) (s : State) : ∃ t, exec i s = .next t ∧ Effect i s t := by
  cases i with
  | br mask off => exact ⟨_, exec_br mask off s, .jumps _ rfl rfl⟩
  | jmp b => exact ⟨_, exec_jmp b s, .jumps _ rfl rfl⟩
  | jsr off => exact ⟨_, exec_jsr off s, .links _ rfl (.head _) rfl⟩
  | jsrr b => exact ⟨_, exec_jsrr b s, .links _ rfl (.head _) rfl⟩
  | addReg d a b => exact ⟨_, exec_addReg d a b s, .delivers_untraced rfl rfl (.head _)⟩
  | addImm d a imm => exact ⟨_, exec_addImm d a imm s, .delivers_untraced rfl rfl (.head _)⟩
  | andReg d a b => exact ⟨_, exec_andReg d a b s, .delivers_untraced rfl rfl (.head _)⟩
  | andImm d a imm => exact ⟨_, exec_andImm d a imm s, .delivers_untraced rfl rfl (.head _)⟩
  | not d a => exact ⟨_, exec_not d a s, .delivers_untraced rfl rfl (.head _)⟩
  | lea d off => exact ⟨_, exec_lea d off s, .delivers_untraced rfl rfl (.head _)⟩
  | ld d off => exact ⟨_, exec_ld d off s, .delivers d _ rfl (.head _)⟩
  | ldr d b off => exact ⟨_, exec_ldr d b off s, .delivers d _ rfl (.head _)⟩
  | ldi d off =>
    refine ⟨_, exec_ldi d off s, ?_⟩
    rw [State.loadInto_eq, State.note_note]
    exact .delivers d _ rfl (.head _)
  | st r off => exact ⟨_, exec_st r off s, .stores _ _ rfl (.head _)⟩
  | str r b off => exact ⟨_, exec_str r b off s, .stores _ _ rfl (.head _)⟩
  | sti r off =>
    refine ⟨_, exec_sti r off s, ?_⟩
    rw [State.portWrite_eq, State.note_writeMem, State.note_note, State.writeMem_noteAll]
    exact .stores _ _ rfl (.head _)
  | rti => exact ⟨_, exec_rti s, .faults rfl⟩
  | reserved => exact ⟨_, exec_reserved s, .faults rfl⟩
  | trap v =>
    cases hh : s.trapHandler v with
    | none => exact ⟨_, exec_trap_unregistered hh, .faults rfl⟩
    | some h => exact ⟨_, exec_trap_registered hh, .calls v h rfl hh⟩

/-- What a step does: the effect of its word's instruction on the advanced state. -/
theorem effect_of_step {s t : State} (h : step s = .next t) : Effect (decode s.fetchWord) s.beginStep t := by
  obtain ⟨u, hu, heff⟩ := exec_effect (decode s.fetchWord) s.beginStep
  cases h.symm.trans hu
  exact heff

theorem effect_nextState (s : State) : Effect (decode s.fetchWord) s.beginStep (nextState s) := by
  obtain ⟨t, ht, heff⟩ := exec_effect (decode s.fetchWord) s.beginStep
  rwa [nextState_of_step ht]

/-- Whether an instruction calls a handler is decided by the registry, which the advance leaves. -/
@[simp] theorem callsHandler_beginStep (i : Instr) (s : State) :
    callsHandler i s.beginStep = callsHandler i s := by
  cases i <;> rfl

theorem callsHandler_of_trap {i : Instr} {s : State} {v : TrapVector} {h : HandlerId} (htrap : i = .trap v)
    (hh : s.trapHandler v = some h) : callsHandler i s = true := by
  simp [htrap, callsHandler, hh]

end Sys2Proof.Machine
end

section
/-! PROOFS. What every step keeps: the invariant, the flags' invariant of R16, and the frames of R10, R12, R14 and
R20. -/

namespace Sys2Proof.Machine

variable {i : Instr} {s t : State}

/-! ### What each shape of effect keeps -/

/-- The flags come from a result exactly when the instruction sets them, and else stay (R17). -/
theorem Effect.flags (heff : Effect i s t) :
    (flagSource i ≠ none ∧ ∃ v, t.cc = ccOf v) ∨ (flagSource i = none ∧ t.cc = s.cc) := by
  cases heff with
  | delivers d v hsrc => exact .inl ⟨by simp [hsrc], v, rfl⟩
  | stores _ _ hsrc | jumps _ hsrc | links _ hsrc | faults hsrc => exact .inr ⟨hsrc, rfl⟩
  | calls v h htrap => exact .inr ⟨by simp [htrap, flagSource], by simp⟩

theorem Effect.registry_config (heff : Effect i s t) :
    t.trapRegistry = s.trapRegistry ∧ t.config = s.config := by
  cases heff with
  | delivers | stores | jumps | links | faults => exact ⟨rfl, rfl⟩
  | calls => simp

theorem Effect.memory_wf (heff : Effect i s t) (hm : Memory.wf s.mem) : Memory.wf t.mem := by
  cases heff with
  | delivers | jumps | links | faults => exact hm
  | stores a v => exact Memory.wf_write hm a v
  | calls v h => exact State.trapRequest_wf h v hm

theorem Effect.legalCc_kept (heff : Effect i s t) (hc : legalCc s.cc) : legalCc t.cc := by
  obtain ⟨-, v, hcc⟩ | ⟨-, hcc⟩ := heff.flags
  · exact .inr (hcc ▸ ccOf_exactlyOneFlag v)
  · exact hcc ▸ hc

theorem Effect.oneFlag_after (heff : Effect i s t) (h : exactlyOneFlag s.cc ∨ flagSource i ≠ none) :
    exactlyOneFlag t.cc := by
  obtain ⟨-, v, hcc⟩ | ⟨hsrc, hcc⟩ := heff.flags
  · exact hcc ▸ ccOf_exactlyOneFlag v
  · exact hcc ▸ h.resolve_right (absurd hsrc)

theorem Effect.inv (heff : Effect i s t) (h : s.Inv) : t.Inv := by
  obtain ⟨hmem, hreg, hcc⟩ := h
  obtain ⟨hregistry, -⟩ := heff.registry_config
  exact ⟨heff.memory_wf hmem, hregistry ▸ hreg, heff.legalCc_kept hcc⟩

theorem Effect.regsKept (heff : Effect i s t) (hcall : callsHandler i s = false) :
    regsKeptExcept (writtenRegs i) s t := by
  intro r hr
  cases heff with
  | delivers d v _ hreg =>
    have hne : r ≠ d := fun h => hr (h ▸ hreg)
    exact (State.writeResult_readReg _ d v r).trans (if_neg hne)
  | links _ _ hreg =>
    have hne : r ≠ 7 := fun h => hr (h ▸ hreg)
    exact (State.readReg_writeReg s 7 s.pc r).trans (if_neg hne)
  | stores | jumps | faults => rfl
  | calls v h htrap hh => simp [callsHandler_of_trap htrap hh] at hcall

theorem Effect.cellsKept (heff : Effect i s t) (hcall : callsHandler i s = false) :
    cellsKeptExcept (storedCells i s) s t := by
  intro a ha
  cases heff with
  | stores b v _ hcell =>
    have hne : a ≠ b := fun h => ha (h ▸ hcell)
    exact (State.readMem_writeMem _ b v a).trans (if_neg hne)
  | delivers | jumps | links | faults => rfl
  | calls v h htrap hh => simp [callsHandler_of_trap htrap hh] at hcall

theorem Effect.pcKept (heff : Effect i s t) (hcall : callsHandler i s = false)
    (htransfer : transfersControl i = false) : t.pc = s.pc := by
  cases heff with
  | delivers | stores | faults => rfl
  | jumps _ _ htr | links _ _ _ htr => simp [htr] at htransfer
  | calls v h htrap hh => simp [callsHandler_of_trap htrap hh] at hcall

/-! ### The statements -/

/-- Settles O51: the advance keeps the invariant, and so does each shape of effect. -/
theorem everyStepKeepsTheInvariant : Obligations.EveryStepKeepsTheInvariant := by
  intro s t hinv hstep
  have hbegin : s.beginStep.Inv := hinv
  exact (effect_of_step hstep).inv hbegin

/-- Settles O12, by induction on the number of steps: after the first step one flag holds, and every step keeps that. -/
theorem exactlyOneFlagHoldsEverAfter : Obligations.ExactlyOneFlagHoldsEverAfter := by
  intro s k hs
  have hnext : exactlyOneFlag (nextState s).cc := (effect_nextState s).oneFlag_after hs
  induction k generalizing s with
  | zero => exact hnext
  | succ k ih => exact ih (nextState s) (.inl hnext) ((effect_nextState (nextState s)).oneFlag_after (.inl hnext))

/-- Settles O41. -/
theorem stepWritesOnlyTheRegistersOfTheTable : Obligations.StepWritesOnlyTheRegistersOfTheTable := by
  intro s t hstep hcall
  exact (effect_of_step hstep).regsKept (by simpa using hcall)

/-- Settles O42. -/
theorem memoryChangesOnlyWhereAStoreWrites : Obligations.MemoryChangesOnlyWhereAStoreWrites := by
  intro s t hstep hcall
  exact (effect_of_step hstep).cellsKept (by simpa using hcall)

/-- Settles O43: only the advance moves the PC. -/
theorem onlyTransfersMoveThePcElsewhere : Obligations.OnlyTransfersMoveThePcElsewhere := by
  intro s t hstep hcall htransfer
  exact (effect_of_step hstep).pcKept (by simpa using hcall) htransfer

/-- Settles O44. -/
theorem noStepChangesTheRegistryOrTheParameters : Obligations.NoStepChangesTheRegistryOrTheParameters := by
  intro s t hstep
  exact (effect_of_step hstep).registry_config

end Sys2Proof.Machine
end

section
/-! PROOFS. What no instruction reads: the flags but for BR (R17), and the model's own fields (R10, R65). -/

namespace Sys2Proof.Machine

/-! ### Other flags -/

/-- A handler that replies alike under other flags has the same effect, and leaves those flags (R101). -/
theorem State.trapRequest_otherFlags {h : HandlerId} {v : TrapVector} {c : BitVec 3} {s : State}
    (hr : { s with cc := c }.trapReply h v = s.trapReply h v) :
    { s with cc := c }.trapRequest h v = { s.trapRequest h v with cc := c } := by
  rw [State.trapRequest, hr]
  exact State.applyTrapReply_otherFlags (s.trapReply h v) c
    { s.note (.trapRequest v) with trapDraws := s.trapDraws + 1 }

/-- Every instruction but BR does the same under other flags `c`, which stay if it sets none (R17). -/
theorem exec_otherFlags (i : Instr) (c : BitVec 3) (s : State) (hbr : ∀ m off, i ≠ .br m off)
    (hreply : ∀ v h, i = .trap v → s.trapHandler v = some h →
      { s with cc := c }.trapReply h v = s.trapReply h v) :
    ∃ t, exec i s = .next t ∧
      exec i { s with cc := c } = .next { t with cc := if flagSource i = none then c else t.cc } := by
  cases i with
  | br m off => exact absurd rfl (hbr m off)
  | trap v =>
    cases hh : s.trapHandler v with
    | none => exact ⟨_, exec_trap_unregistered hh, exec_trap_unregistered (s := { s with cc := c }) hh⟩
    | some h =>
      refine ⟨_, exec_trap_registered hh, ?_⟩
      rw [exec_trap_registered (s := { s with cc := c }) hh, State.trapRequest_otherFlags (hreply v h rfl hh)]
      rfl
  | addReg | addImm | andReg | andImm | not | ld | ldi | ldr | lea => exact ⟨_, rfl, rfl⟩
  | st | sti | str | jmp | jsr | jsrr | rti | reserved => exact ⟨_, rfl, rfl⟩

/-- Settles O45. -/
theorem onlyBranchReadsTheFlags : Obligations.OnlyBranchReadsTheFlags := by
  intro s c hbr hreply
  exact exec_otherFlags (decode s.fetchWord) c s.beginStep hbr hreply

/-! ### Other values of the model's own fields -/

/-- No instruction reads the draw counter or the parameters, but for a TRAP that calls a handler (R101) and JSRR R7
(R95). -/
theorem exec_otherModelFields (i : Instr) (n : Nat) (c : Config) (s : State) (hcall : callsHandler i s = false)
    (hjsrr : i ≠ .jsrr 7) :
    ∃ t, exec i s = .next t ∧
      exec i { s with trapDraws := n, config := c } = .next { t with trapDraws := n, config := c } := by
  cases i with
  | jsrr b =>
    have hb : b ≠ 7 := fun h => hjsrr (h ▸ rfl)
    have hlink (u : State) : exec (.jsrr b) u = .next ((u.writeReg 7 u.pc).setPc (u.readReg b)) := by
      rw [exec_jsrr, State.readReg_writeReg, if_neg hb, Bool.cond_self]
    exact ⟨_, hlink s, hlink _⟩
  | trap v =>
    have hh : s.trapHandler v = none := by simpa [callsHandler] using hcall
    exact ⟨_, exec_trap_unregistered hh,
      exec_trap_unregistered (s := { s with trapDraws := n, config := c }) hh⟩
  | addReg | addImm | andReg | andImm | not | ld | ldi | ldr | lea => exact ⟨_, rfl, rfl⟩
  | st | sti | str | br | jmp | jsr | rti | reserved => exact ⟨_, rfl, rfl⟩

/-- States with the same five pieces start their step alike but for the draw counter and the parameters: the outputs
restart from what is fetched (R65). -/
theorem State.beginStep_eq_of_pieces {s s' : State} (hregs : s.regs = s'.regs) (hpc : s.pc = s'.pc)
    (hcc : s.cc = s'.cc) (hmem : s.mem = s'.mem) (hreg : s.trapRegistry = s'.trapRegistry) :
    s'.beginStep = { s.beginStep with trapDraws := s'.trapDraws, config := s'.config } := by
  cases s
  cases s'
  cases hregs
  cases hpc
  cases hcc
  cases hmem
  cases hreg
  rfl

/-- Settles O46: the two steps execute the same instruction on states that differ in fields it does not read. -/
theorem fivePiecesDetermineTheNextFive : Obligations.FivePiecesDetermineTheNextFive := by
  intro s s' t t' hregs hpc hcc hmem hreg hcall hjsrr hstep hstep'
  have hfetch : s'.fetchWord = s.fetchWord := by rw [State.fetchWord, State.readMem, ← hmem, ← hpc]; rfl
  obtain ⟨u, hu, hu'⟩ := exec_otherModelFields (decode s.fetchWord) s'.trapDraws s'.config s.beginStep
    (by simpa using hcall) hjsrr
  rw [← State.beginStep_eq_of_pieces hregs hpc hcc hmem hreg, ← hfetch] at hu'
  cases hstep.symm.trans hu
  cases hstep'.symm.trans hu'
  exact ⟨rfl, rfl, rfl, rfl, rfl, rfl⟩

end Sys2Proof.Machine
end

section
/-! PROOFS. The canonical form determines a memory (log entry 8), and what reset gives (R22 to R24). -/

namespace Sys2Proof.Machine

/-! ### Canonical memories -/

/-- With rising keys, the entries of a list are what a lookup finds. -/
theorem Sparse.mem_iff_lookup {α : Type} {m : List (Nat × α)} (h : m.Pairwise (fun c d => c.1 < d.1)) (a : Nat)
    (v : α) : (a, v) ∈ m ↔ Sparse.lookup m a = some v := by
  induction m with
  | nil => simp [Sparse.lookup]
  | cons c rest ih =>
    obtain ⟨k, w⟩ := c
    obtain ⟨hk, hrest⟩ := List.pairwise_cons.mp h
    by_cases hka : k = a
    · subst hka
      have hnot : (k, v) ∉ rest := fun hmem => lt_irrefl k (hk _ hmem)
      simp [Sparse.lookup, hnot, eq_comm]
    · simp [Sparse.lookup, hka, Ne.symm hka, ih hrest]

/-- The cells a canonical memory lists are those that do not read as 0. -/
theorem Memory.mem_iff_read {m : Memory} (h : Memory.wf m) (c : Cell) :
    c ∈ m ↔ ∃ a : Word, c.1 = a.toNat ∧ c.2 = Memory.read m a ∧ c.2 ≠ Memory.unlisted := by
  obtain ⟨⟨hsorted, hbound⟩, hlisted⟩ := h
  constructor
  · intro hc
    have hlook := (Sparse.mem_iff_lookup hsorted c.1 c.2).mp hc
    have haddr : c.1 = (BitVec.ofNat 16 c.1).toNat := by
      rw [BitVec.toNat_ofNat, Nat.mod_eq_of_lt (hbound c hc)]
    refine ⟨BitVec.ofNat 16 c.1, haddr, ?_, hlisted c hc⟩
    rw [Memory.read, ← haddr, hlook, Option.getD_some]
  · rintro ⟨a, haddr, hread, hne⟩
    apply (Sparse.mem_iff_lookup hsorted c.1 c.2).mpr
    rw [Memory.read, ← haddr] at hread
    cases hlook : Sparse.lookup m c.1 with
    | none => simp [hlook, hne] at hread
    | some v => simpa [hlook] using hread.symm

/-- Settles O53: the memories list the same cells, each in rising order. -/
theorem canonicalMemoriesThatReadAlikeAreEqual : Obligations.CanonicalMemoriesThatReadAlikeAreEqual := by
  intro m n hm hn hread
  have hcells (c : Cell) : c ∈ m ↔ c ∈ n := by simp only [Memory.mem_iff_read hm, Memory.mem_iff_read hn, hread]
  obtain ⟨⟨hmsorted, -⟩, -⟩ := hm
  obtain ⟨⟨hnsorted, -⟩, -⟩ := hn
  exact List.Pairwise.eq_of_mem_iff (r := InvImage (· < ·) Prod.fst) hmsorted hnsorted hcells

/-! ### Reset -/

/-- Settles O48. -/
theorem resetZeroesRegistersAndMemory : Obligations.ResetZeroesRegistersAndMemory :=
  ⟨State.readReg_reset, Memory.read_nil⟩

/-- Settles O49: each field of the reset state is what it is defined as, and an empty registry finds no handler. -/
theorem resetPcFlagsAndRegistry : Obligations.ResetPcFlagsAndRegistry :=
  ⟨rfl, rfl, fun _ => rfl, rfl, rfl⟩

/-- Settles O50. -/
theorem resetMeetsTheInvariant : Obligations.ResetMeetsTheInvariant :=
  ⟨Memory.wf_reset, Registry.wf_reset, .inl rfl⟩

end Sys2Proof.Machine
end

section
/-! PROOFS. The memory rules: every access succeeds (R27), addresses wrap (R26), the accesses of each instruction are
those of the table (R30), and a store is seen by the next fetch (R39). -/

namespace Sys2Proof.Machine

variable {i : Instr} {s t : State}

/-! ### Addresses -/

theorem pcRelative_toNat (off : Word) (s : State) :
    (pcRelative off s).toNat = (s.pc.toNat + off.toNat) % 65536 := BitVec.toNat_add s.pc off

theorem baseOffset_toNat (base : RegIndex) (off : Word) (s : State) :
    (baseOffset base off s).toNat = ((s.readReg base).toNat + off.toNat) % 65536 :=
  BitVec.toNat_add (s.readReg base) off

/-! ### The traffic of an instruction (R30) -/

/-- A call of a handler adds its request to the record: the accesses of the handler are not the core's (R30, R101). -/
@[simp] theorem State.trapRequest_transactions (h : HandlerId) (v : TrapVector) (s : State) :
    (s.trapRequest h v).output.transactions = s.output.transactions ++ [.trapRequest v] := by
  obtain ⟨-, -, -, -, htr, -⟩ := State.applyTrapReply_frame (s.trapReply h v)
    { s.note (.trapRequest v) with trapDraws := s.trapDraws + 1 }
  exact htr

/-- An instruction adds to the record exactly what the table gives it. -/
theorem exec_transactions (h : exec i s = .next t) :
    t.output.transactions = s.output.transactions ++ coreTraffic i s := by
  cases i with
  | ld | ldr | st | str =>
    cases h
    rfl
  | ldi | sti =>
    cases h
    exact List.append_assoc s.output.transactions [_] [_]
  | trap v =>
    cases hh : s.trapHandler v with
    | none =>
      cases (exec_trap_unregistered hh).symm.trans h
      simp [coreTraffic, hh]
    | some k =>
      cases (exec_trap_registered hh).symm.trans h
      simp [coreTraffic, hh]
  | addReg | addImm | andReg | andImm | not | lea | br | jmp | jsr | jsrr | rti | reserved =>
    cases h
    exact (List.append_nil s.output.transactions).symm

/-! ### The effect of a store -/

/-- An instruction that stores to `a` writes some `v` there, as its last access, and changes nothing else. -/
theorem exec_store {a : Word} (hcell : storedCells i s = [a]) :
    ∃ v, (coreTraffic i s).getLast? = some (.write a v) ∧
      exec i s = .next ((s.noteAll (coreTraffic i s)).writeMem a v) := by
  cases i with
  | st r off | str r b off =>
    cases hcell
    exact ⟨s.readReg r, rfl, rfl⟩
  | sti r off =>
    cases hcell
    refine ⟨s.readReg r, rfl, ?_⟩
    rw [exec_sti, State.portWrite_eq, State.note_writeMem, State.note_note, State.writeMem_noteAll]
    rfl
  | addReg | addImm | andReg | andImm | not | ld | ldi | ldr | lea => cases hcell
  | br | jmp | jsr | jsrr | trap | rti | reserved => cases hcell

/-! ### The statements -/

/-- Settles O9: every instruction answers a next state. -/
theorem everyStepAnswersANextState : Obligations.EveryStepAnswersANextState := by
  intro s
  obtain ⟨t, ht, -⟩ := exec_effect (decode s.fetchWord) s.beginStep
  exact ⟨t, ht⟩

/-- Settles O40: the record holds only the fetch after the advance, and the instruction adds its own. -/
theorem memoryTrafficOfEveryStep : Obligations.MemoryTrafficOfEveryStep := by
  intro s t hstep
  exact exec_transactions hstep

/-- Settles O47: the store moves no PC, so the next fetch reads the cell just written. -/
theorem nextFetchSeesTheStore : Obligations.NextFetchSeesTheStore := by
  intro s t hstep hcell
  obtain ⟨v, hlast, hexec⟩ := exec_store hcell
  cases hstep.symm.trans hexec
  refine ⟨v, ?_, rfl, ?_⟩
  · rw [memoryTrafficOfEveryStep s _ hstep, List.getLast?_cons, hlast, Option.getD_some]
  · simp [step_eq_exec, State.fetchWord]

/-- Settles O26: the sums are sums of words, and each boundary case is one of them. -/
theorem addressesWrapModulo65536 : Obligations.AddressesWrapModulo65536 := by
  refine ⟨pcRelative_toNat, baseOffset_toNat, ?_, ?_, ?_, ?_⟩
  · intro base s hbase
    rw [baseOffset, hbase]
    rfl
  · intro s hpc
    rw [pcRelative, hpc]
    rfl
  · intro s hpc
    rw [State.fetchWord, State.beginStep_pc, hpc]
    rfl
  · intro u v s
    simp [load]

end Sys2Proof.Machine
end

section
/-! PROOFS. What a field cut out of a word and a field put into a word have to do with each other (R42, R54), and
operands in the range of their field (R47). -/

namespace Sys2Proof

/-! ### Fields of a word -/

theorem field_or (v w : Word) (lo len : Nat) : field (v ||| w) lo len = field v lo len ||| field w lo len :=
  BitVec.extractLsb'_or

theorem field_toNat (w : Word) (lo len : Nat) : (field w lo len).toNat = w.toNat / 2 ^ lo % 2 ^ len := by
  rw [field, BitVec.extractLsb'_toNat, Nat.shiftRight_eq_div_pow]

/-- A field of one bit is that bit. -/
theorem field_one (w : Word) (i : Nat) : field w i 1 = BitVec.ofBool (w.getLsbD i) := by
  apply BitVec.eq_of_getLsbD_eq
  intro j hj
  obtain rfl : j = 0 := by omega
  simp [getLsbD_field, -BitVec.getLsbD_eq_getElem]

/-- Words that agree on a field agree on every field inside it. -/
theorem field_eq_of_within {w x : Word} {lo len lo' len' : Nat} (h : field w lo len = field x lo len)
    (hlo : lo ≤ lo') (hlen : lo' + len' ≤ lo + len) : field w lo' len' = field x lo' len' := by
  apply BitVec.eq_of_getLsbD_eq
  intro i hi
  have hin : lo' - lo + i < len := by omega
  have hplace : lo + (lo' - lo + i) = lo' + i := by omega
  have hbit := congrArg (BitVec.getLsbD · (lo' - lo + i)) h
  simpa only [getLsbD_field, hin, hi, hplace, decide_true, Bool.true_and] using hbit

/-- A field is read back from the place where it was put. -/
theorem field_placed {n : Nat} (f : BitVec n) {lo : Nat} (h : lo + n ≤ 16) : field (placed f lo) lo n = f := by
  apply BitVec.eq_of_getLsbD_eq
  intro i hi
  have h16 : lo + i < 16 := by omega
  rw [getLsbD_field, getLsbD_placed, Nat.add_sub_cancel_left]
  simp only [hi, h16, Nat.le_add_right, decide_true, Bool.true_and]

/-- A placed field leaves the bits below it and above it clear. -/
theorem field_placed_disjoint {n : Nat} (f : BitVec n) {place lo len : Nat} (h : lo + len ≤ place ∨ place + n ≤ lo) :
    field (placed f place) lo len = 0 := by
  apply BitVec.eq_of_getLsbD_eq
  intro i hi
  rw [getLsbD_field, getLsbD_placed, BitVec.ofNat_eq_ofNat, BitVec.getLsbD_zero]
  obtain hbelow | habove := h
  · have hplace : ¬ place ≤ lo + i := by omega
    simp only [hplace, decide_false, Bool.and_false, Bool.false_and]
  · have hbit : f.getLsbD (lo + i - place) = false := BitVec.getLsbD_of_ge f _ (by omega)
    simp only [hbit, Bool.and_false]

/-- Putting a field back where it stands keeps the word's bits there and clears the others. -/
theorem placed_field (w : Word) (lo len : Nat) :
    placed (field w lo len) lo = w &&& placed (BitVec.allOnes len) lo := by
  apply BitVec.eq_of_getLsbD_eq
  intro i hi
  rw [BitVec.getLsbD_and, getLsbD_placed, getLsbD_placed, getLsbD_field, BitVec.getLsbD_allOnes]
  by_cases hlo : lo ≤ i
  · rw [Nat.add_sub_cancel' hlo, ← Bool.and_assoc, Bool.and_comm]
  · simp only [hlo, decide_false, Bool.and_false, Bool.false_and]

/-- A field put back beside kept bits is kept too. -/
theorem and_or_placed_field (w m : Word) (lo len : Nat) :
    w &&& m ||| placed (field w lo len) lo = w &&& (m ||| placed (BitVec.allOnes len) lo) := by
  rw [placed_field, BitVec.and_or_distrib_left]

/-- Filling in `k` makes no difference between a word and its bits outside `k`. -/
theorem or_and_eq_or {k m : Word} (h : k ||| m = BitVec.allOnes 16) (w : Word) : k ||| w &&& m = w ||| k := by
  apply BitVec.eq_of_getLsbD_eq
  intro i hi
  have hbit : (k.getLsbD i || m.getLsbD i) = true := by
    rw [← BitVec.getLsbD_or, h, BitVec.getLsbD_allOnes, decide_eq_true hi]
  rw [BitVec.getLsbD_or, BitVec.getLsbD_and, BitVec.getLsbD_or, Bool.or_and_distrib_left, hbit, Bool.and_true,
    Bool.or_comm]

/-! ### Operands in the range of their field -/

theorem fitsSigned_sext {n : Nat} (h : n ≤ 16) (f : BitVec n) : fitsSigned n (sext f) = true := by
  rw [fitsSigned, sext, BitVec.toInt_signExtend_of_le h, Bool.and_eq_true, decide_eq_true_iff, decide_eq_true_iff]
  exact ⟨BitVec.le_toInt f, BitVec.toInt_lt⟩

/-- An operand in the range of its field is the sign extension of its low bits (R54). -/
theorem sext_low {n : Nat} (hpos : 0 < n) (h : n ≤ 16) {v : Word} (hv : fitsSigned n v = true) :
    sext (low n v) = v := by
  rw [fitsSigned, Bool.and_eq_true, decide_eq_true_iff, decide_eq_true_iff] at hv
  obtain ⟨hge, hlt⟩ := hv
  have hpow : ((2 ^ n : Nat) : Int) = 2 ^ (n - 1) * 2 := by
    rw [← pow_succ, Nat.sub_add_cancel hpos, Nat.cast_pow, Nat.cast_ofNat]
  apply BitVec.eq_of_toInt_eq
  calc (sext (low n v)).toInt
      = (v.toNat : Int).bmod (2 ^ n) := by rw [sext, low, BitVec.toInt_signExtend_of_le h, BitVec.toInt_setWidth]
    _ = v.toInt.bmod (2 ^ n) := by rw [BitVec.toInt_eq_toNat_bmod, Int.bmod_bmod_of_dvd (Nat.pow_dvd_pow 2 h)]
    _ = v.toInt := Int.bmod_eq_of_le (by omega) (by omega)

end Sys2Proof
end

section
/-! PROOFS. The decoder and the encoder as one relation between a word and an instruction: the word is in the
instruction's format (R44, R50). The decoder finds the one instruction whose format a word is in, and the encoder's word
is in the format of the instruction it was given; the round trips of R54 follow. -/

namespace Sys2Proof

variable {w : Word} {i : Instr}

/-- The word is in the format of the instruction, with the opcode value of R50, the mode bit of R45, and the operands
in the fields where R44 has them. It is what the decoder decides (`decode_eq_iff`). -/
def HasFormat (w : Word) : Instr → Prop
  | .br mask off => field w 12 4 = 0b0000 ∧ field w 9 3 = mask ∧ sext (field w 0 9) = off
  | .addReg dst src1 src2 => field w 12 4 = 0b0001 ∧ w.getLsbD 5 = false ∧
    field w 9 3 = dst ∧ field w 6 3 = src1 ∧ field w 0 3 = src2
  | .addImm dst src1 imm => field w 12 4 = 0b0001 ∧ w.getLsbD 5 = true ∧
    field w 9 3 = dst ∧ field w 6 3 = src1 ∧ sext (field w 0 5) = imm
  | .ld dst off => field w 12 4 = 0b0010 ∧ field w 9 3 = dst ∧ sext (field w 0 9) = off
  | .st src off => field w 12 4 = 0b0011 ∧ field w 9 3 = src ∧ sext (field w 0 9) = off
  | .jsrr base => field w 12 4 = 0b0100 ∧ w.getLsbD 11 = false ∧ field w 6 3 = base
  | .jsr off => field w 12 4 = 0b0100 ∧ w.getLsbD 11 = true ∧ sext (field w 0 11) = off
  | .andReg dst src1 src2 => field w 12 4 = 0b0101 ∧ w.getLsbD 5 = false ∧
    field w 9 3 = dst ∧ field w 6 3 = src1 ∧ field w 0 3 = src2
  | .andImm dst src1 imm => field w 12 4 = 0b0101 ∧ w.getLsbD 5 = true ∧
    field w 9 3 = dst ∧ field w 6 3 = src1 ∧ sext (field w 0 5) = imm
  | .ldr dst base off => field w 12 4 = 0b0110 ∧ field w 9 3 = dst ∧ field w 6 3 = base ∧ sext (field w 0 6) = off
  | .str src base off => field w 12 4 = 0b0111 ∧ field w 9 3 = src ∧ field w 6 3 = base ∧ sext (field w 0 6) = off
  | .rti => field w 12 4 = 0b1000
  | .not dst src => field w 12 4 = 0b1001 ∧ field w 9 3 = dst ∧ field w 6 3 = src
  | .ldi dst off => field w 12 4 = 0b1010 ∧ field w 9 3 = dst ∧ sext (field w 0 9) = off
  | .sti src off => field w 12 4 = 0b1011 ∧ field w 9 3 = src ∧ sext (field w 0 9) = off
  | .jmp base => field w 12 4 = 0b1100 ∧ field w 6 3 = base
  | .reserved => field w 12 4 = 0b1101
  | .lea dst off => field w 12 4 = 0b1110 ∧ field w 9 3 = dst ∧ sext (field w 0 9) = off
  | .trap vector => field w 12 4 = 0b1111 ∧ field w 0 8 = vector

/-! ### The decoder -/

/-- The opcode is the four bits the decoder looks at. -/
theorem opcode_eq_iff {op : BitVec 4} : field w 12 4 = op ↔
    w.getLsbD 15 = op.getLsbD 3 ∧ w.getLsbD 14 = op.getLsbD 2 ∧ w.getLsbD 13 = op.getLsbD 1 ∧
    w.getLsbD 12 = op.getLsbD 0 := by
  constructor
  · rintro rfl
    simp only [getLsbD_field]
    exact ⟨rfl, rfl, rfl, rfl⟩
  · rintro ⟨h15, h14, h13, h12⟩
    apply BitVec.eq_of_getLsbD_eq
    intro i hi
    rw [getLsbD_field]
    interval_cases i
    · exact h12
    · exact h13
    · exact h14
    · exact h15

/-- One case for each arm of the decoder, in its order, which is that of the opcode values. -/
theorem hasFormat_decode (w : Word) : HasFormat w (decode w) := by
  unfold decode
  split
  all_goals rename_i h15 h14 h13 h12
  case h_2 | h_6 =>
    split
    case isTrue hmode => exact ⟨opcode_eq_iff.mpr ⟨h15, h14, h13, h12⟩, hmode, rfl, rfl, rfl⟩
    case isFalse hmode =>
      exact ⟨opcode_eq_iff.mpr ⟨h15, h14, h13, h12⟩, Bool.eq_false_iff.mpr hmode, rfl, rfl, rfl⟩
  case h_5 =>
    split
    case isTrue hmode => exact ⟨opcode_eq_iff.mpr ⟨h15, h14, h13, h12⟩, hmode, rfl⟩
    case isFalse hmode => exact ⟨opcode_eq_iff.mpr ⟨h15, h14, h13, h12⟩, Bool.eq_false_iff.mpr hmode, rfl⟩
  case h_1 | h_3 | h_4 | h_10 | h_11 | h_12 | h_15 => exact ⟨opcode_eq_iff.mpr ⟨h15, h14, h13, h12⟩, rfl, rfl⟩
  case h_7 | h_8 => exact ⟨opcode_eq_iff.mpr ⟨h15, h14, h13, h12⟩, rfl, rfl, rfl⟩
  case h_13 | h_16 => exact ⟨opcode_eq_iff.mpr ⟨h15, h14, h13, h12⟩, rfl⟩
  case h_9 | h_14 => exact opcode_eq_iff.mpr ⟨h15, h14, h13, h12⟩

/-- A word is in the format of one instruction only, the one decoded. -/
theorem HasFormat.decode_eq (h : HasFormat w i) : decode w = i := by
  cases i with
  | br | ld | st | ldi | sti | lea | not =>
    obtain ⟨hop, rfl, rfl⟩ := h
    obtain ⟨h15, h14, h13, h12⟩ := opcode_eq_iff.mp hop
    rw [decode, h15, h14, h13, h12]
    rfl
  | ldr | str =>
    obtain ⟨hop, rfl, rfl, rfl⟩ := h
    obtain ⟨h15, h14, h13, h12⟩ := opcode_eq_iff.mp hop
    rw [decode, h15, h14, h13, h12]
    rfl
  | jmp | trap =>
    obtain ⟨hop, rfl⟩ := h
    obtain ⟨h15, h14, h13, h12⟩ := opcode_eq_iff.mp hop
    rw [decode, h15, h14, h13, h12]
    rfl
  | rti | reserved =>
    obtain ⟨h15, h14, h13, h12⟩ := opcode_eq_iff.mp h
    rw [decode, h15, h14, h13, h12]
    rfl
  | addReg | addImm | andReg | andImm =>
    obtain ⟨hop, hmode, rfl, rfl, rfl⟩ := h
    obtain ⟨h15, h14, h13, h12⟩ := opcode_eq_iff.mp hop
    rw [decode, h15, h14, h13, h12, hmode]
    rfl
  | jsr | jsrr =>
    obtain ⟨hop, hmode, rfl⟩ := h
    obtain ⟨h15, h14, h13, h12⟩ := opcode_eq_iff.mp hop
    rw [decode, h15, h14, h13, h12, hmode]
    rfl

theorem decode_eq_iff : decode w = i ↔ HasFormat w i :=
  ⟨fun h => h ▸ hasFormat_decode w, HasFormat.decode_eq⟩

theorem HasFormat.decode_eq_decode {x : Word} (hw : HasFormat w i) (hx : HasFormat x i) : decode w = decode x :=
  hw.decode_eq.trans hx.decode_eq.symm

/-- The operands found in a word are in range, being sign-extended fields (R47). -/
theorem HasFormat.wf (h : HasFormat w i) : i.wf = true := by
  cases i with
  | br | ld | st | ldi | sti | lea | jsr =>
    obtain ⟨-, -, rfl⟩ := h
    exact fitsSigned_sext (by decide) _
  | ldr | str =>
    obtain ⟨-, -, -, rfl⟩ := h
    exact fitsSigned_sext (by decide) _
  | addImm | andImm =>
    obtain ⟨-, -, -, -, rfl⟩ := h
    exact fitsSigned_sext (by decide) _
  | addReg | andReg | not | jsrr | jmp | rti | reserved | trap => rfl

/-! ### The encoder -/

theorem encode_eq_none_iff (i : Instr) : encode i = none ↔ i = .reserved := by
  cases i <;> simp [encode]

/-- The encoder's word is in the instruction's format: each field is read back from its place, and the row's constant
holds the opcode and the mode bit. -/
theorem hasFormat_of_encode (hwf : i.wf = true) (henc : encode i = some w) : HasFormat w i := by
  cases i
  case reserved => cases henc
  all_goals
    obtain rfl := Option.some.inj henc
    simp (disch := decide) only [HasFormat, field_or, field_placed, field_placed_disjoint]
  case br | ld | st | ldi | sti | lea | ldr | str =>
    have hoff := sext_low (by decide) (by decide) hwf
    simp [field, hoff]
  case addImm | andImm | jsr =>
    have himm := sext_low (by decide) (by decide) hwf
    simp [field, himm, getLsbD_placed, -BitVec.getLsbD_eq_getElem]
  case addReg | andReg | jsrr => simp [field, getLsbD_placed, -BitVec.getLsbD_eq_getElem]
  case not | jmp | trap | rti => simp [field]

/-- The opcode bits of a word, the others clear. -/
theorem and_opcodeMask {op : BitVec 4} (hop : field w 12 4 = op) : w &&& 0xF000 = placed op 12 :=
  hop ▸ (placed_field w 12 4).symm

/-- The opcode bits and a mode bit of a word, the others clear. -/
theorem and_opcodeModeMask {op : BitVec 4} {place : Nat} {mode : Bool} (hop : field w 12 4 = op)
    (hmode : w.getLsbD place = mode) :
    w &&& (0xF000 ||| placed (BitVec.allOnes 1) place) = placed op 12 ||| placed (BitVec.ofBool mode) place := by
  rw [BitVec.and_or_distrib_left, and_opcodeMask hop, ← placed_field, field_one, hmode]

/-- A word lies in the row of spec/opcode_table.json of the instruction whose format it is in. -/
theorem HasFormat.tableRow (h : HasFormat w i) : w &&& Laws.TableRow.mask i = Laws.TableRow.pattern i := by
  cases i with
  | br | ld | st | ldr | str | not | ldi | sti | jmp | lea | trap =>
    obtain ⟨hop, -⟩ := h
    exact (and_opcodeMask hop :)
  | rti | reserved => exact (and_opcodeMask h :)
  | addReg | addImm | andReg | andImm | jsr | jsrr =>
    obtain ⟨hop, hmode, -⟩ := h
    exact (and_opcodeModeMask hop hmode :)

/-- The encoder puts back the bits of the row and of each field: all bits of the word but the ignored ones (R54). -/
theorem HasFormat.encode_eq (h : HasFormat w i) (hne : i ≠ .reserved) : encode i = some (canonicalWord w) := by
  have hrow := h.tableRow
  cases i
  case reserved => exact absurd rfl hne
  all_goals simp only [Laws.TableRow.mask, Laws.TableRow.pattern] at hrow
  case br | ld | st | ldi | sti | lea =>
    obtain ⟨hop, rfl, rfl⟩ := h
    obtain ⟨h15, h14, h13, h12⟩ := opcode_eq_iff.mp hop
    rw [canonicalWord, h15, h14, h13, h12, encode, low_sext (by decide), ← hrow]
    simp only [and_or_placed_field]
    exact congrArg some BitVec.and_allOnes
  case ldr | str =>
    obtain ⟨hop, rfl, rfl, rfl⟩ := h
    obtain ⟨h15, h14, h13, h12⟩ := opcode_eq_iff.mp hop
    rw [canonicalWord, h15, h14, h13, h12, encode, low_sext (by decide), ← hrow]
    simp only [and_or_placed_field]
    exact congrArg some BitVec.and_allOnes
  case addImm | andImm =>
    obtain ⟨hop, hmode, rfl, rfl, rfl⟩ := h
    obtain ⟨h15, h14, h13, h12⟩ := opcode_eq_iff.mp hop
    rw [canonicalWord, h15, h14, h13, h12, hmode, encode, low_sext (by decide), ← hrow]
    simp only [and_or_placed_field]
    exact congrArg some BitVec.and_allOnes
  case jsr =>
    obtain ⟨hop, hmode, rfl⟩ := h
    obtain ⟨h15, h14, h13, h12⟩ := opcode_eq_iff.mp hop
    rw [canonicalWord, h15, h14, h13, h12, hmode, encode, low_sext (by decide), ← hrow, and_or_placed_field]
    exact congrArg some BitVec.and_allOnes
  case addReg | andReg =>
    obtain ⟨hop, hmode, rfl, rfl, rfl⟩ := h
    obtain ⟨h15, h14, h13, h12⟩ := opcode_eq_iff.mp hop
    rw [canonicalWord, h15, h14, h13, h12, hmode, encode, ← hrow]
    simp only [and_or_placed_field]
    rfl
  case jsrr =>
    obtain ⟨hop, hmode, rfl⟩ := h
    obtain ⟨h15, h14, h13, h12⟩ := opcode_eq_iff.mp hop
    rw [canonicalWord, h15, h14, h13, h12, hmode, encode, ← hrow, and_or_placed_field]
    rfl
  case jmp | trap =>
    obtain ⟨hop, rfl⟩ := h
    obtain ⟨h15, h14, h13, h12⟩ := opcode_eq_iff.mp hop
    rw [canonicalWord, h15, h14, h13, h12, encode, ← hrow, and_or_placed_field]
    rfl
  case rti =>
    obtain ⟨h15, h14, h13, h12⟩ := opcode_eq_iff.mp h
    rw [canonicalWord, h15, h14, h13, h12, encode, ← hrow]
    rfl
  case not =>
    -- NOT alone has ignored bits whose canonical value is 1: the constant is the row's pattern and this filler.
    obtain ⟨hop, rfl, rfl⟩ := h
    obtain ⟨h15, h14, h13, h12⟩ := opcode_eq_iff.mp hop
    have hfiller : (0x903F : Word) = 0x003F ||| 0x9000 := rfl
    rw [canonicalWord, h15, h14, h13, h12, encode, hfiller, BitVec.or_assoc 0x003F, BitVec.or_assoc 0x003F, ← hrow,
      and_or_placed_field, and_or_placed_field]
    exact congrArg some (or_and_eq_or rfl w)

/-! ### The statements -/

/-- Settles O2: the encoder's word is in the instruction's format, and that is what the decoder finds. -/
theorem decodeOfEncodeIsTheInstruction : Obligations.DecodeOfEncodeIsTheInstruction := by
  refine ⟨?_, encode_eq_none_iff⟩
  intro i w hwf henc
  exact (hasFormat_of_encode hwf henc).decode_eq

/-- Settles O3: the canonical word is the encoding of a well-formed instruction, so it decodes to that instruction. -/
theorem encodeOfDecodeIsTheCanonicalWord : Obligations.EncodeOfDecodeIsTheCanonicalWord := by
  intro w hop
  have hformat := hasFormat_decode w
  have hne : decode w ≠ .reserved := fun h => hop (decode_eq_iff.mp h)
  have henc := hformat.encode_eq hne
  exact ⟨henc, (hasFormat_of_encode hformat.wf henc).decode_eq⟩

/-- Settles O4. -/
theorem decodedInstructionsAreWellFormed : Obligations.DecodedInstructionsAreWellFormed := by
  intro w
  exact (hasFormat_decode w).wf

/-- Settles O5: in each clause both words are in the format of the instruction with the fields of the second. -/
theorem ignoredBitsDoNotChangeTheDecoding : Obligations.IgnoredBitsDoNotChangeTheDecoding := by
  intro w x hop
  refine ⟨?aluRegister, ?not, ?jmp, ?jsrr, ?trap, ?withoutFields⟩
  case aluRegister =>
    intro hrow hw hx hregs hsrc2
    have hdst : field w 9 3 = field x 9 3 := field_eq_of_within hregs (by decide) (by decide)
    have hsrc1 : field w 6 3 = field x 6 3 := field_eq_of_within hregs (by decide) (by decide)
    obtain hadd | hand := hrow
    · exact HasFormat.decode_eq_decode (i := .addReg (field x 9 3) (field x 6 3) (field x 0 3))
        ⟨hadd, hw, hdst, hsrc1, hsrc2⟩ ⟨hop ▸ hadd, hx, rfl, rfl, rfl⟩
    · exact HasFormat.decode_eq_decode (i := .andReg (field x 9 3) (field x 6 3) (field x 0 3))
        ⟨hand, hw, hdst, hsrc1, hsrc2⟩ ⟨hop ▸ hand, hx, rfl, rfl, rfl⟩
  case not =>
    intro hnot hregs
    have hdst : field w 9 3 = field x 9 3 := field_eq_of_within hregs (by decide) (by decide)
    have hsrc : field w 6 3 = field x 6 3 := field_eq_of_within hregs (by decide) (by decide)
    exact HasFormat.decode_eq_decode (i := .not (field x 9 3) (field x 6 3))
      ⟨hnot, hdst, hsrc⟩ ⟨hop ▸ hnot, rfl, rfl⟩
  case jmp =>
    intro hjmp hbase
    exact HasFormat.decode_eq_decode (i := .jmp (field x 6 3)) ⟨hjmp, hbase⟩ ⟨hop ▸ hjmp, rfl⟩
  case jsrr =>
    intro hjsrr hw hx hbase
    exact HasFormat.decode_eq_decode (i := .jsrr (field x 6 3)) ⟨hjsrr, hw, hbase⟩ ⟨hop ▸ hjsrr, hx, rfl⟩
  case trap =>
    intro htrap hvector
    exact HasFormat.decode_eq_decode (i := .trap (field x 0 8)) ⟨htrap, hvector⟩ ⟨hop ▸ htrap, rfl⟩
  case withoutFields =>
    rintro (hrti | hreserved)
    · exact HasFormat.decode_eq_decode (i := .rti) hrti (hop.symm.trans hrti)
    · exact HasFormat.decode_eq_decode (i := .reserved) hreserved (hop.symm.trans hreserved)

/-- Settles O1: sixteen closed words, each run through the decoder. -/
theorem writtenOutWordsDecodeAsTheSpecSays : Obligations.WrittenOutWordsDecodeAsTheSpecSays := by
  unfold Obligations.WrittenOutWordsDecodeAsTheSpecSays
  decide

/-- Settles O6: the tag is given exactly to the words whose top four bits are the number 13. -/
theorem unimplementedTagExactlyOnD000ToDFFF : Obligations.UnimplementedTagExactlyOnD000ToDFFF := by
  intro w
  have hword : w.toNat < 65536 := w.isLt
  have hopcode : (field w 12 4).toNat = w.toNat / 4096 % 16 := field_toNat w 12 4
  rw [decode_eq_iff, HasFormat, ← BitVec.toNat_inj, hopcode]
  change w.toNat / 4096 % 16 = 13 ↔ _
  omega

end Sys2Proof
end

section
/-! PROOFS. The step cycle: fetch and advance (R61, R62), the outputs as no state (R65), the flags (R66), and the
addresses and links formed from the advanced PC (R67). -/

namespace Sys2Proof.Machine

variable {i : Instr} {s t u : State}

/-! ### The start of a step -/

/-- The outputs of the step before are dropped, whatever they were (R65). -/
theorem State.beginStep_otherOutput (s : State) (o : StepOutput) :
    ({ s with output := o } : State).beginStep = s.beginStep := rfl

theorem State.fetchWord_otherOutput (s : State) (o : StepOutput) :
    ({ s with output := o } : State).fetchWord = s.fetchWord := rfl

/-- The step at a word that decodes to `i` leaves what `i` makes of the advanced state. -/
theorem eq_of_step (hstep : step s = .next t) (hword : decode s.fetchWord = i)
    (hexec : exec i s.beginStep = .next u) : t = u := by
  rw [step_eq_exec, hword, hexec] at hstep
  injection hstep with hut
  exact hut.symm

/-- With a base other than the link register, JSRR reads the same target before and after the link (R94). -/
theorem exec_jsrr_of_ne {b : RegIndex} (hb : b ≠ 7) (s : State) :
    exec (.jsrr b) s = .next ((s.writeReg 7 s.pc).setPc (s.readReg b)) := by
  rw [exec_jsrr, State.readReg_writeReg, if_neg hb, Bool.cond_self]

/-! ### The flags after an instruction -/

theorem Effect.cc_of_flagSource (heff : Effect i s t) {d : RegIndex} (hd : flagSource i = some d) :
    t.cc = ccOf (t.readReg d) := by
  cases heff with
  | delivers e v hsrc =>
    obtain rfl : e = d := Option.some.inj (hsrc.symm.trans hd)
    simp
  | stores _ _ hsrc | jumps _ hsrc | links _ hsrc | faults hsrc => simp [hsrc] at hd
  | calls v h htrap => simp [htrap, flagSource] at hd

theorem Effect.cc_kept (heff : Effect i s t) (hnone : flagSource i = none) : t.cc = s.cc := by
  obtain ⟨hsome, -⟩ | ⟨-, hcc⟩ := heff.flags
  · exact absurd hnone hsome
  · exact hcc

/-! ### The statements -/

/-- Settles O11: an instruction with a flag source delivers its result there with the flags from it, and every other
shape of effect leaves the flags; the boundaries are closed words. -/
theorem flagsFollowTheValueWrittenAndNothingElse : Obligations.FlagsFollowTheValueWrittenAndNothingElse := by
  refine ⟨fun _ _ => rfl, fun v _ => ccOf_exactlyOneFlag v, by decide, by decide, by decide, by decide, by decide, ?_⟩
  intro s t hstep
  have heff : Effect (decode s.fetchWord) s.beginStep t := effect_of_step hstep
  exact ⟨fun _ hd => heff.cc_of_flagSource hd, heff.cc_kept⟩

/-- Settles O13: the equation of each instruction, read on the advanced state, whose PC is the instruction's address
plus 1. -/
theorem pcRelativeAddressesUseTheAdvancedPc : Obligations.PcRelativeAddressesUseTheAdvancedPc := by
  intro s t off hstep
  refine ⟨?ld, ?ldi, ?lea, ?st, ?sti, ?br, ?jsr, ?jsrr, ?jmp⟩
  case ld =>
    intro d hword
    rw [eq_of_step hstep hword (exec_ld d off s.beginStep)]
    simp [State.loadInto_eq, pcRelative]
  case ldi =>
    intro d hword
    rw [eq_of_step hstep hword (exec_ldi d off s.beginStep)]
    simp [State.loadInto_eq, indirectAddress, pcRelative]
  case lea =>
    intro d hword
    rw [eq_of_step hstep hword (exec_lea d off s.beginStep)]
    simp [pcRelative]
  case st =>
    intro r hword
    rw [eq_of_step hstep hword (exec_st r off s.beginStep)]
    simp [State.portWrite_eq, pcRelative]
  case sti =>
    intro r hword
    rw [eq_of_step hstep hword (exec_sti r off s.beginStep)]
    simp [State.portWrite_eq, indirectAddress, pcRelative]
  case br =>
    intro m hword hmeets
    have htaken : branchTaken m s.cc = true := bne_iff_ne.mpr hmeets
    rw [eq_of_step hstep hword (exec_br m off s.beginStep)]
    simp [htaken, pcRelative]
  case jsr =>
    intro hword
    rw [eq_of_step hstep hword (exec_jsr off s.beginStep)]
    simp [pcRelative]
  case jsrr =>
    intro b hword
    constructor
    · rw [eq_of_step hstep hword (exec_jsrr b s.beginStep)]
      simp
    · intro hb
      rw [eq_of_step hstep hword (exec_jsrr_of_ne hb s.beginStep)]
      simp
  case jmp =>
    intro b hword
    rw [eq_of_step hstep hword (exec_jmp b s.beginStep)]
    simp

/-- Settles O8: the start of the step is the state written out, and addition of words is modulo 65536. -/
theorem stepExecutesTheWordAtThePc : Obligations.StepExecutesTheWordAtThePc := by
  refine ⟨?_, fun s => BitVec.toNat_add s.pc 1, by decide⟩
  intro s i hword
  have hfetch : decode s.fetchWord = i := hword
  rw [step_eq_exec, hfetch]
  rfl

/-- Settles O10: the step starts alike whatever the record holds. -/
theorem stepIgnoresTheOutputsOfTheLast : Obligations.StepIgnoresTheOutputsOfTheLast := by
  intro s o
  rw [step_eq_exec, State.fetchWord_otherOutput, State.beginStep_otherOutput, ← step_eq_exec]

end Sys2Proof.Machine
end

section
/-! PROOFS. A word put together from fields, in numbers (R6, R54). -/

namespace Sys2Proof

theorem placed_eq_ofNat {n : Nat} (f : BitVec n) (lo : Nat) : placed f lo = BitVec.ofNat 16 (f.toNat * 2 ^ lo) := by
  apply BitVec.eq_of_toNat_eq
  rw [placed, BitVec.toNat_shiftLeft, BitVec.toNat_setWidth, Nat.shiftLeft_eq, BitVec.toNat_ofNat, Nat.mod_mul_mod]

/-- A field placed where a word's bits are clear has no bit in common with it. -/
theorem ofNat_and_placed {n c lo : Nat} (f : BitVec n) (hclear : c / 2 ^ lo % 2 ^ n = 0) :
    BitVec.ofNat 16 c &&& placed f lo = 0#16 := by
  apply BitVec.eq_of_getLsbD_eq
  intro i hi
  rw [BitVec.getLsbD_and, getLsbD_placed, BitVec.getLsbD_ofNat, BitVec.getLsbD_zero]
  by_cases hin : lo ≤ i ∧ i - lo < n
  · obtain ⟨hlo, hlen⟩ := hin
    have hbit : c.testBit i = false := by
      have hfield := congrArg (Nat.testBit · (i - lo)) hclear
      simpa [Nat.testBit_mod_two_pow, Nat.testBit_div_two_pow, hlen, Nat.sub_add_cancel hlo] using hfield
    simp [hbit]
  · obtain hlo | hlen : ¬ lo ≤ i ∨ n ≤ i - lo := by omega
    · simp [hlo]
    · rw [BitVec.getLsbD_of_ge f (i - lo) hlen, Bool.and_false, Bool.and_false]

/-- Placing a field where a word's bits are clear adds the field's number, scaled to its place. -/
theorem ofNat_or_placed {n c lo : Nat} (f : BitVec n) (hclear : c / 2 ^ lo % 2 ^ n = 0) :
    BitVec.ofNat 16 c ||| placed f lo = BitVec.ofNat 16 (c + f.toNat * 2 ^ lo) := by
  rw [← BitVec.add_eq_or_of_and_eq_zero _ _ (ofNat_and_placed f hclear), placed_eq_ofNat, BitVec.ofNat_add]

/-- The number of a word with the two register fields of ADD, AND and NOT (R44). -/
theorem ofNat_or_regs {c : Nat} (dst src : RegIndex) (hclear : c / 64 % 64 = 0) :
    BitVec.ofNat 16 c ||| placed dst 9 ||| placed src 6 =
      BitVec.ofNat 16 (c + dst.toNat * 512 + src.toNat * 64) := by
  rw [ofNat_or_placed dst (by omega), ofNat_or_placed src (by omega)]
  rfl

/-- The number of a word with two register fields and a field of at most six bits below them (R44). -/
theorem ofNat_or_regs_low {n c : Nat} (dst src : RegIndex) (f : BitVec n) (hn : n ≤ 6) (hregs : c / 64 % 64 = 0)
    (hlow : c % 2 ^ n = 0) :
    BitVec.ofNat 16 c ||| placed dst 9 ||| placed src 6 ||| placed f 0 =
      BitVec.ofNat 16 (c + dst.toNat * 512 + src.toNat * 64 + f.toNat) := by
  have hregsLow : 2 ^ n ∣ dst.toNat * 512 + src.toNat * 64 := (Nat.pow_dvd_pow 2 hn).trans (by omega)
  have hclear : 2 ^ n ∣ c + dst.toNat * 512 + src.toNat * 64 := by
    rw [Nat.add_assoc]
    exact (Nat.dvd_of_mod_eq_zero hlow).add hregsLow
  have hplace : (c + dst.toNat * 512 + src.toNat * 64) / 2 ^ 0 % 2 ^ n = 0 := by
    rw [pow_zero, Nat.div_one, Nat.mod_eq_zero_of_dvd hclear]
  rw [ofNat_or_regs dst src hregs, ofNat_or_placed f hplace, pow_zero, Nat.mul_one]

end Sys2Proof
end

section
/-! PROOFS. ADD, AND and NOT (spec 41_alu.md): for each form what decodes to it, its canonical word, and its whole
effect. -/

namespace Sys2Proof.Machine

/-! ### The shared effect -/

/-- Delivering a result after the accesses `ts` changes the destination, the flags and the record, and nothing else
(R70). -/
theorem State.writeResult_delivered (d : RegIndex) (v : Word) (ts : List Transaction) (s : State) :
    resultDelivered d v ts s ((s.noteAll ts).writeResult d v) := by
  refine ⟨?value, rfl, ?otherRegs, rfl, fun _ _ => rfl, ⟨rfl, rfl, rfl⟩, rfl, rfl⟩
  case value => simp
  case otherRegs =>
    intro r hr
    have hne : r ≠ d := fun h => hr (List.mem_singleton.mpr h)
    simp [hne]

/-- An instruction that only delivers a result, without a data access (R30), has the whole effect of one. -/
theorem delivered_of_exec {i : Instr} {d : RegIndex} {v : Word} {s : State}
    (hexec : exec i s = .next (s.writeResult d v)) : ∃ t, exec i s = .next t ∧ resultDelivered d v [] s t := by
  have hdelivered := State.writeResult_delivered d v [] s
  rw [State.noteAll_nil] at hdelivered
  exact ⟨_, hexec, hdelivered⟩

/-- XOR with `0xFFFF` is the complement within 16 bits (R75). -/
theorem toNat_xor_FFFF (v : Word) : (v ^^^ 0xFFFF).toNat = 65535 - v.toNat :=
  calc (v ^^^ 0xFFFF).toNat
      = (~~~v).toNat := congrArg BitVec.toNat (BitVec.xor_allOnes (x := v))
    _ = 65535 - v.toNat := BitVec.toNat_not

/-! ### The statements -/

/-- Settles O14: the word is in the format of the form, its fields stand where the row's constant is clear, and the sum
is delivered. -/
theorem addRegisterForm : Obligations.AddRegisterForm := by
  refine ⟨?decoding, ?word, ?effect⟩
  case decoding => exact fun w hop hmode => HasFormat.decode_eq ⟨hop, hmode, rfl, rfl, rfl⟩
  case word =>
    intro dst src1 src2
    exact congrArg some (ofNat_or_regs_low dst src1 src2 (by decide) (by decide) (by decide))
  case effect => exact fun dst src1 src2 s => delivered_of_exec (exec_addReg dst src1 src2 s)

/-- Settles O15, as O14, with the immediate's five bits for the second source. -/
theorem addImmediateForm : Obligations.AddImmediateForm := by
  refine ⟨?decoding, ?word, ?effect⟩
  case decoding => exact fun w hop hmode => HasFormat.decode_eq ⟨hop, hmode, rfl, rfl, rfl⟩
  case word =>
    intro dst src1 imm
    exact congrArg some (ofNat_or_regs_low dst src1 (low 5 imm) (by decide) (by decide) (by decide))
  case effect => exact fun dst src1 imm s => delivered_of_exec (exec_addImm dst src1 imm s)

/-- Settles O16, as O14, with AND for the sum. -/
theorem andRegisterForm : Obligations.AndRegisterForm := by
  refine ⟨?decoding, ?word, ?effect⟩
  case decoding => exact fun w hop hmode => HasFormat.decode_eq ⟨hop, hmode, rfl, rfl, rfl⟩
  case word =>
    intro dst src1 src2
    exact congrArg some (ofNat_or_regs_low dst src1 src2 (by decide) (by decide) (by decide))
  case effect => exact fun dst src1 src2 s => delivered_of_exec (exec_andReg dst src1 src2 s)

/-- Settles O17, as O15, with AND for the sum. -/
theorem andImmediateForm : Obligations.AndImmediateForm := by
  refine ⟨?decoding, ?word, ?effect⟩
  case decoding => exact fun w hop hmode => HasFormat.decode_eq ⟨hop, hmode, rfl, rfl, rfl⟩
  case word =>
    intro dst src1 imm
    exact congrArg some (ofNat_or_regs_low dst src1 (low 5 imm) (by decide) (by decide) (by decide))
  case effect => exact fun dst src1 imm s => delivered_of_exec (exec_andImm dst src1 imm s)

/-- Settles O18: the filler `0x3F` of the row's constant stands below both register fields, and the value delivered is
the complement. -/
theorem notComplementsSixteenBits : Obligations.NotComplementsSixteenBits := by
  refine ⟨?decoding, ?word, ?effect⟩
  case decoding => exact fun w hop => HasFormat.decode_eq ⟨hop, rfl, rfl⟩
  case word => exact fun dst src => congrArg some (ofNat_or_regs dst src (by decide))
  case effect =>
    intro dst src s
    obtain ⟨t, hexec, hdelivered⟩ := delivered_of_exec (exec_not dst src s)
    have hvalue : t.readReg dst = s.readReg src ^^^ 0xFFFF := hdelivered.1
    refine ⟨t, hexec, hdelivered, ?_⟩
    rw [hvalue, toNat_xor_FFFF]

end Sys2Proof.Machine
end

section
/-! PROOFS. The loads, LEA and the stores (spec 42_memory_access.md): for each instruction what decodes to it, its
canonical word, and its whole effect. -/

namespace Sys2Proof

/-! ### The shared word -/

/-- The number of a word with one register field above a nine-bit offset (R44). -/
theorem ofNat_or_reg_low {c : Nat} (reg : RegIndex) (f : BitVec 9) (hclear : c % 4096 = 0) :
    BitVec.ofNat 16 c ||| placed reg 9 ||| placed f 0 = BitVec.ofNat 16 (c + reg.toNat * 512 + f.toNat) := by
  rw [ofNat_or_placed reg (by omega), ofNat_or_placed f (by omega), pow_zero, Nat.mul_one]
  rfl

end Sys2Proof

namespace Sys2Proof.Machine

variable {i : Instr} {s : State}

/-! ### The shared effect of the loads -/

/-- A flag-setting instruction whose last access is a read delivers the value read (R80). -/
theorem exec_load {d : RegIndex} {a v : Word} (hsrc : flagSource i = some d)
    (hlast : (coreTraffic i s).getLast? = some (.read a v)) :
    exec i s = .next ((s.noteAll (coreTraffic i s)).writeResult d v) := by
  cases i with
  | ld | ldr =>
    cases hsrc
    cases hlast
    rfl
  | ldi e off =>
    cases hsrc
    cases hlast
    rw [exec_ldi, State.loadInto_eq, State.note_note]
    rfl
  | addReg | addImm | andReg | andImm | not | lea => cases hlast
  | st | sti | str | br | jmp | jsr | jsrr | trap | rti | reserved => cases hsrc

/-- A load's whole effect is that of a delivered result, after the accesses the table of R30 gives it. -/
theorem delivered_of_lastRead {d : RegIndex} {a v : Word} (hsrc : flagSource i = some d)
    (hlast : (coreTraffic i s).getLast? = some (.read a v)) :
    ∃ t, exec i s = .next t ∧ resultDelivered d v (coreTraffic i s) s t :=
  ⟨_, exec_load hsrc hlast, State.writeResult_delivered d v (coreTraffic i s) s⟩

/-! ### The shared effect of the stores -/

/-- Writing a cell after the accesses `ts` changes that cell and the record, and nothing else (R31, R80). -/
theorem State.writeMem_stored (a v : Word) (ts : List Transaction) (s : State) :
    cellStored a v ts s ((s.noteAll ts).writeMem a v) := by
  refine ⟨?value, ?otherCells, fun _ _ => rfl, rfl, rfl, ⟨rfl, rfl, rfl⟩, rfl, rfl⟩
  case value => simp
  case otherCells =>
    intro b hb
    have hne : b ≠ a := fun h => hb (List.mem_singleton.mpr h)
    simp [hne]

/-- A store writes the cell its last access names, after the accesses the table of R30 gives it. -/
theorem stored_of_lastWrite {a v : Word} (hcell : storedCells i s = [a])
    (hlast : (coreTraffic i s).getLast? = some (.write a v)) :
    ∃ t, exec i s = .next t ∧ cellStored a v (coreTraffic i s) s t := by
  obtain ⟨u, hu, hexec⟩ := exec_store hcell
  cases hlast.symm.trans hu
  exact ⟨_, hexec, State.writeMem_stored a v (coreTraffic i s) s⟩

/-! ### The statements on the loads and LEA -/

/-- Settles O19: the word is in the format of LD, its fields stand where the row's constant is clear, and the one read
is the value delivered. -/
theorem loadPcRelative : Obligations.LoadPcRelative := by
  refine ⟨?decoding, ?word, ?effect⟩
  case decoding => exact fun w hop => HasFormat.decode_eq ⟨hop, rfl, rfl⟩
  case word => exact fun dst off => congrArg some (ofNat_or_reg_low dst (low 9 off) (by decide))
  case effect => exact fun dst off s => delivered_of_lastRead (i := .ld dst off) rfl rfl

/-- Settles O20, as O19, with the second of two reads for the value delivered. -/
theorem loadIndirect : Obligations.LoadIndirect := by
  refine ⟨?decoding, ?word, ?effect⟩
  case decoding => exact fun w hop => HasFormat.decode_eq ⟨hop, rfl, rfl⟩
  case word => exact fun dst off => congrArg some (ofNat_or_reg_low dst (low 9 off) (by decide))
  case effect => exact fun dst off s => delivered_of_lastRead (i := .ldi dst off) rfl rfl

/-- Settles O21, as O19, with a base register and six bits for the offset; the read is recorded in the state before the
destination is written, so its address is that of the old base. -/
theorem loadBaseOffset : Obligations.LoadBaseOffset := by
  refine ⟨?decoding, ?word, ?effect⟩
  case decoding => exact fun w hop => HasFormat.decode_eq ⟨hop, rfl, rfl, rfl⟩
  case word =>
    intro dst base off
    exact congrArg some (ofNat_or_regs_low dst base (low 6 off) (by decide) (by decide) (by decide))
  case effect => exact fun dst base off s => delivered_of_lastRead (i := .ldr dst base off) rfl rfl

/-- Settles O22, as O19, but the address is itself the value delivered, without a data access. -/
theorem loadEffectiveAddress : Obligations.LoadEffectiveAddress := by
  refine ⟨?decoding, ?word, ?effect⟩
  case decoding => exact fun w hop => HasFormat.decode_eq ⟨hop, rfl, rfl⟩
  case word => exact fun dst off => congrArg some (ofNat_or_reg_low dst (low 9 off) (by decide))
  case effect => exact fun dst off s => delivered_of_exec (exec_lea dst off s)

/-! ### The statements on the stores -/

/-- Settles O23: the word is in the format of ST, its fields stand where the row's constant is clear, and the one access
writes the cell. -/
theorem storePcRelative : Obligations.StorePcRelative := by
  refine ⟨?decoding, ?word, ?effect⟩
  case decoding => exact fun w hop => HasFormat.decode_eq ⟨hop, rfl, rfl⟩
  case word => exact fun src off => congrArg some (ofNat_or_reg_low src (low 9 off) (by decide))
  case effect =>
    rintro src off s _ rfl
    exact stored_of_lastWrite (i := .st src off) rfl rfl

/-- Settles O24, as O23, with the read of the pointer before the write. -/
theorem storeIndirect : Obligations.StoreIndirect := by
  refine ⟨?decoding, ?word, ?effect⟩
  case decoding => exact fun w hop => HasFormat.decode_eq ⟨hop, rfl, rfl⟩
  case word => exact fun src off => congrArg some (ofNat_or_reg_low src (low 9 off) (by decide))
  case effect =>
    rintro src off s _ rfl
    exact stored_of_lastWrite (i := .sti src off) rfl rfl

/-- Settles O25, as O23, with a base register and six bits for the offset. -/
theorem storeBaseOffset : Obligations.StoreBaseOffset := by
  refine ⟨?decoding, ?word, ?effect⟩
  case decoding => exact fun w hop => HasFormat.decode_eq ⟨hop, rfl, rfl, rfl⟩
  case word =>
    intro src base off
    exact congrArg some (ofNat_or_regs_low src base (low 6 off) (by decide) (by decide) (by decide))
  case effect =>
    rintro src base off s _ rfl
    exact stored_of_lastWrite (i := .str src base off) rfl rfl

end Sys2Proof.Machine
end

section
/-! PROOFS. BR, JMP, JSR and JSRR (spec 43_control_transfer.md): for each instruction what decodes to it, its canonical
word, and its whole effect. -/

namespace Sys2Proof

/-! ### The three bits of a mask -/

/-- A mask in numbers: N is worth 4, Z 2 and P 1 (R46). -/
theorem toNat_eq_maskBits (mask : BitVec 3) :
    mask.toNat = (mask.getLsbD 2).toNat * 4 + (mask.getLsbD 1).toNat * 2 + (mask.getLsbD 0).toNat := by
  revert mask
  decide

theorem ne_zero_iff_maskBits (c : BitVec 3) :
    c ≠ 0b000 ↔ c.getLsbD 2 = true ∨ c.getLsbD 1 = true ∨ c.getLsbD 0 = true := by
  revert c
  decide

end Sys2Proof

namespace Sys2Proof.Machine

variable {i : Instr} {s : State} {target : Word}

/-! ### The two shapes of a transfer -/

/-- An instruction that only sets the PC has the whole effect of a transfer without a link (R91, R92). -/
theorem transferred_of_jump (hexec : exec i s = .next (s.setPc target)) :
    ∃ t, exec i s = .next t ∧ transferred target [] s t :=
  ⟨_, hexec, rfl, fun _ _ => rfl, rfl, fun _ _ => rfl, ⟨rfl, rfl, rfl⟩, rfl, (List.append_nil _).symm⟩

/-- An instruction that links and then sets the PC has the whole effect of a transfer that writes R7 (R93, R94). -/
theorem transferred_of_link (hexec : exec i s = .next ((s.writeReg 7 s.pc).setPc target)) :
    ∃ t, exec i s = .next t ∧ transferred target [7] s t ∧ t.readReg 7 = s.pc := by
  refine ⟨_, hexec, ⟨rfl, ?otherRegs, rfl, fun _ _ => rfl, ⟨rfl, rfl, rfl⟩, rfl, (List.append_nil _).symm⟩, ?link⟩
  case otherRegs =>
    intro r hr
    have hne : r ≠ 7 := fun h => hr (List.mem_singleton.mpr h)
    exact (State.readReg_writeReg s 7 s.pc r).trans (if_neg hne)
  case link => simp

/-! ### The targets -/

/-- A BR, with its condition as R91 has it. -/
theorem exec_br_eq_ite (mask : BitVec 3) (off : Word) (s : State) :
    exec (.br mask off) s = .next (s.setPc (if s.cc &&& mask ≠ 0b000 then s.pc + off else s.pc)) := by
  rw [exec_br, Bool.cond_eq_ite]
  simp only [branchTaken, bne_iff_ne, pcRelative]

/-- A BR whose mask meets no flag does nothing (R91). -/
theorem exec_br_untaken {mask : BitVec 3} (off : Word) (hmiss : s.cc &&& mask = 0b000) :
    exec (.br mask off) s = .next s := by
  rw [exec_br_eq_ite, if_neg (not_not_intro hmiss)]
  rfl

/-- JSRR with the link register for its base, its target under either setting of the parameter (R95). -/
theorem exec_jsrr_link (s : State) :
    exec (.jsrr 7) s = .next ((s.writeReg 7 s.pc).setPc
      (if s.config.jsrrReadsBaseFirst = true then s.readReg 7 else s.pc)) := by
  rw [exec_jsrr, State.readReg_writeReg, if_pos rfl, Bool.cond_eq_ite]

/-! ### The statements -/

/-- Settles O27: the mask stands where a register field would, and its three bits make the number of R46; a mask meets
a flag when their conjunction has one of its three bits. -/
theorem branchTakenExactlyWhenTheMaskMeetsAFlag : Obligations.BranchTakenExactlyWhenTheMaskMeetsAFlag := by
  refine ⟨?decoding, ?word, ?effect, ?condition, ?noMask, ?noFlag⟩
  case decoding => exact fun w hop => HasFormat.decode_eq ⟨hop, rfl, rfl⟩
  case word =>
    intro mask off
    have hword : encode (.br mask off) = some (BitVec.ofNat 16 (0 + mask.toNat * 512 + (low 9 off).toNat)) :=
      congrArg some (ofNat_or_reg_low mask (low 9 off) (by decide))
    have hmask := toNat_eq_maskBits mask
    rw [hword]
    congr 2
    omega
  case effect => exact fun mask off s => transferred_of_jump (exec_br_eq_ite mask off s)
  case condition =>
    intro mask s
    simp only [ne_zero_iff_maskBits, BitVec.getLsbD_and, Bool.and_eq_true, State.flagN, State.flagZ, State.flagP,
      and_comm]
  case noMask => exact fun off s => exec_br_untaken off BitVec.and_zero
  case noFlag =>
    intro mask off s hcc
    have hmiss : s.cc &&& mask = 0b000 := (congrArg (· &&& mask) hcc).trans BitVec.zero_and
    exact exec_br_untaken off hmiss

/-- Settles O28: the base stands where the row's constant is clear, and the register read is the target. -/
theorem jumpGoesToTheBaseRegister : Obligations.JumpGoesToTheBaseRegister := by
  refine ⟨?decoding, ?word, ?ret, ?effect⟩
  case decoding => exact fun w hop => HasFormat.decode_eq ⟨hop, rfl⟩
  case word => exact fun base => congrArg some (ofNat_or_placed base (by decide))
  case ret => exact HasFormat.decode_eq ⟨rfl, rfl⟩
  case effect => exact fun base s => transferred_of_jump (exec_jmp base s)

/-- Settles O29: the eleven bits of the offset stand at the word's end, where the row's constant is clear; the link and
the target are formed from the same PC. -/
theorem jumpToSubroutinePcRelative : Obligations.JumpToSubroutinePcRelative := by
  refine ⟨?decoding, ?word, ?effect⟩
  case decoding => exact fun w hop hmode => HasFormat.decode_eq ⟨hop, hmode, rfl⟩
  case word =>
    intro off
    have hword : encode (.jsr off) = some (BitVec.ofNat 16 (0x4800 + (low 11 off).toNat * 2 ^ 0)) :=
      congrArg some (ofNat_or_placed (low 11 off) (by decide))
    rw [hword, pow_zero, Nat.mul_one]
  case effect => exact fun off s => transferred_of_link (exec_jsr off s)

/-- Settles O30, as O28, with the link written; a base other than R7 reads the same before and after the link. -/
theorem jumpToSubroutineThroughARegister : Obligations.JumpToSubroutineThroughARegister := by
  refine ⟨?decoding, ?word, ?effect⟩
  case decoding => exact fun w hop hmode => HasFormat.decode_eq ⟨hop, hmode, rfl⟩
  case word => exact fun base => congrArg some (ofNat_or_placed base (by decide))
  case effect => exact fun base s hbase => transferred_of_link (exec_jsrr_of_ne hbase s)

/-- Settles O31: read after the link, R7 holds the advanced PC. -/
theorem jumpToSubroutineThroughR7BothReadings : Obligations.JumpToSubroutineThroughR7BothReadings := by
  intro s
  obtain ⟨t, hexec, htransferred, hlink⟩ := transferred_of_link (exec_jsrr_link s)
  exact ⟨t, hexec, hlink, htransferred⟩

end Sys2Proof.Machine
end

section
/-! PROOFS. TRAP, RTI and the reserved opcode (spec 44_trap_rti.md): the whole effect of a handler's reply and of the
fault, and when a step asks to halt. -/

namespace Sys2Proof.Machine

variable {i : Instr} {s t : State}

/-! ### The writes of a reply -/

/-- The last write to a register stands: the earlier ones are overwritten, and no later one reaches it (R101). -/
theorem State.applyRegWrites_last (before after : List (RegIndex × Word)) (r : RegIndex) (x : Word) (s : State)
    (h : ∀ w ∈ after, w.1 ≠ r) : (s.applyRegWrites (before ++ (r, x) :: after)).readReg r = x := by
  have hsplit : s.applyRegWrites (before ++ (r, x) :: after) =
      ((s.applyRegWrites before).writeReg r x).applyRegWrites after := List.foldl_append
  rw [hsplit, State.applyRegWrites_keeps after _ r h, State.readReg_writeReg, if_pos rfl]

/-- The last write to a cell stands, as for registers. -/
theorem State.applyMemWrites_last (before after : List (Word × Word)) (a x : Word) (s : State)
    (h : ∀ w ∈ after, w.1 ≠ a) : (s.applyMemWrites (before ++ (a, x) :: after)).readMem a = x := by
  have hsplit : s.applyMemWrites (before ++ (a, x) :: after) =
      ((s.applyMemWrites before).writeMem a x).applyMemWrites after := List.foldl_append
  rw [hsplit, State.applyMemWrites_keeps after _ a h, State.readMem_writeMem, if_pos rfl]

theorem State.applyTrapReply_readMem (r : TrapReply) (s : State) (a : Word) :
    (s.applyTrapReply r).readMem a = ((s.applyRegWrites r.regWrites).applyMemWrites r.memWrites).readMem a :=
  State.readMem_congr (State.applyTrapReply_mem r s) a

theorem State.applyRegWrites_readMem (ws : List (RegIndex × Word)) (s : State) (a : Word) :
    (s.applyRegWrites ws).readMem a = s.readMem a := by
  obtain ⟨-, -, hmem, -⟩ := State.applyRegWrites_frame ws s
  exact State.readMem_congr hmem a

/-! ### The result of a call -/

theorem TrapOutcome.result_eq_ite (o : TrapOutcome) :
    TrapOutcome.result o = if o = .halts then .halt else .success := by
  cases o <;> rfl

theorem TrapOutcome.result_eq_halt_iff (o : TrapOutcome) : TrapOutcome.result o = .halt ↔ o = .halts := by
  cases o <;> simp [TrapOutcome.result]

/-- The outcome a handler asks for is the result of the step that called it (R102). -/
theorem State.trapRequest_result (h : HandlerId) (v : TrapVector) (s : State) :
    (s.trapRequest h v).output.result = TrapOutcome.result (s.trapReply h v).outcome := by
  obtain ⟨-, -, -, hresult, -⟩ := State.applyTrapReply_frame (s.trapReply h v)
    { s.note (.trapRequest v) with trapDraws := s.trapDraws + 1 }
  exact hresult

/-- Of the six shapes of effect only the call of a handler brings a Halt, and it does when the handler asks for it
(R114). -/
theorem Effect.handler_halts (heff : Effect i s t) (hs : s.output.result ≠ .halt) (ht : t.output.result = .halt) :
    ∃ v h, i = .trap v ∧ s.trapHandler v = some h ∧ (s.trapReply h v).outcome = .halts := by
  cases heff with
  | delivers | stores | jumps | links => exact absurd ht hs
  | faults => simp at ht
  | calls v h htrap hh =>
    rw [State.trapRequest_result, TrapOutcome.result_eq_halt_iff] at ht
    exact ⟨v, h, htrap, hh, ht⟩

/-! ### The fault -/

/-- Raising the fault changes the result alone (R110, R112). -/
theorem State.raiseUnimplementedOpcode_reported (s : State) :
    faultReported (s.readMem (s.pc - 1)) (s.pc - 1) s s.raiseUnimplementedOpcode :=
  ⟨rfl, rfl, rfl, fun _ _ => rfl, rfl, fun _ _ => rfl, rfl, rfl, rfl⟩

/-- An instruction that only raises the fault has the whole effect of one. -/
theorem faultReported_of_exec (hexec : exec i s = .next s.raiseUnimplementedOpcode) :
    ∃ t, exec i s = .next t ∧ faultReported (s.readMem (s.pc - 1)) (s.pc - 1) s t :=
  ⟨_, hexec, State.raiseUnimplementedOpcode_reported s⟩

/-! ### The statements -/

/-- Settles O34: the two lists of writes act on registers and on cells apart, in each the last write stands, and the
rest is the frame of a reply. -/
theorem handlerReplyWritesWhatItSaysAndNoMore : Obligations.HandlerReplyWritesWhatItSaysAndNoMore := by
  intro r s
  obtain ⟨hpc, hcc, hregistry, -, htransactions, hdraws, hconfig⟩ := State.applyTrapReply_frame r s
  refine ⟨?otherRegs, ?lastReg, ?otherCells, ?lastCell, ?pcKept, ?pcWritten, hcc, ⟨hregistry, hconfig, hdraws⟩,
    htransactions⟩
  case otherRegs =>
    intro i hnone
    rw [State.applyTrapReply_readReg, State.applyRegWrites_keeps _ s i hnone]
  case lastReg =>
    intro before i x after hlist hlater
    rw [State.applyTrapReply_readReg, hlist, State.applyRegWrites_last before after i x s hlater]
  case otherCells =>
    intro a hnone
    rw [State.applyTrapReply_readMem, State.applyMemWrites_keeps _ _ a hnone, State.applyRegWrites_readMem]
  case lastCell =>
    intro before a x after hlist hlater
    rw [State.applyTrapReply_readMem, hlist, State.applyMemWrites_last before after a x _ hlater]
  case pcKept =>
    intro hnone
    rw [hpc, hnone, Option.getD_none]
  case pcWritten =>
    intro p hsome
    rw [hpc, hsome, Option.getD_some]

/-- Settles O39: a step starts with Success for its result, only a call of a handler can bring a Halt, and the call has
the result its handler asks for. -/
theorem haltExactlyAtTheWishOfATrapHandler : Obligations.HaltExactlyAtTheWishOfATrapHandler := by
  intro s t hstep
  constructor
  · intro hhalt
    exact (effect_of_step hstep).handler_halts (by simp) hhalt
  · rintro ⟨v, h, hword, hh, hwish⟩
    have hregistered : s.beginStep.trapHandler v = some h := hh
    rw [eq_of_step hstep hword (exec_trap_registered hregistered), State.trapRequest_result, hwish]
    rfl

/-- Settles O32: the vector is the low field of the word, where the row's constant is clear, and without a handler the
instruction raises the fault. -/
theorem trapWithoutAHandlerReportsTheFault : Obligations.TrapWithoutAHandlerReportsTheFault := by
  refine ⟨?decoding, ?word, ?effect⟩
  case decoding => exact fun w hop => HasFormat.decode_eq ⟨hop, rfl⟩
  case word =>
    intro v
    have hword : encode (.trap v) = some (BitVec.ofNat 16 (0xF000 + v.toNat * 2 ^ 0)) :=
      congrArg some (ofNat_or_placed v (by decide))
    rw [hword, pow_zero, Nat.mul_one]
  case effect => exact fun v s hnone => faultReported_of_exec (exec_trap_unregistered hnone)

/-- Settles O33: the effect is the reply applied after the request, and the rest is the frame of a reply. -/
theorem trapWithAHandlerAppliesItsReply : Obligations.TrapWithAHandlerAppliesItsReply := by
  intro v h s hh
  obtain ⟨hpc, hcc, hregistry, hresult, htransactions, hdraws, hconfig⟩ :=
    State.applyTrapReply_frame (s.trapReply h v) { s.note (.trapRequest v) with trapDraws := s.trapDraws + 1 }
  exact ⟨_, exec_trap_registered hh, rfl, hpc, hcc, hregistry, hconfig, hdraws, htransactions,
    hresult.trans (TrapOutcome.result_eq_ite _)⟩

/-- Settles O35: the opcode alone is the format of RTI, and the instruction only raises the fault. -/
theorem rtiReportsTheFault : Obligations.RtiReportsTheFault := by
  refine ⟨?decoding, rfl, ?effect⟩
  case decoding => exact fun w hop => HasFormat.decode_eq (i := .rti) hop
  case effect => exact fun s => faultReported_of_exec (exec_rti s)

/-- Settles O36, as O35, for the reserved opcode. -/
theorem reservedOpcodeReportsTheFault : Obligations.ReservedOpcodeReportsTheFault := by
  refine ⟨?decoding, ?effect⟩
  case decoding => exact fun w hop => HasFormat.decode_eq (i := .reserved) hop
  case effect => exact fun s => faultReported_of_exec (exec_reserved s)

end Sys2Proof.Machine
end

section
/-! PROOFS. The one fault (spec 60_exceptions.md): the instructions that raise it, and the whole effect of a step that
reports it. -/

namespace Sys2Proof.Machine

variable {i : Instr} {w : Word} {s t : State}

/-- The instruction's rule raises the fault: the causes of R110 after the decoding. It is what the fields of a word say
in `causesFault` (`causesFault_iff_raisesFault`). -/
inductive RaisesFault (s : State) : Instr → Prop
  | reserved : RaisesFault s .reserved
  | rti : RaisesFault s .rti
  | trap {v : TrapVector} (hnone : s.trapHandler v = none) : RaisesFault s (.trap v)

theorem causesFault_iff_raisesFault : causesFault w s ↔ RaisesFault s (decode w) := by
  constructor
  · rintro (hop | hop | ⟨hop, hnone⟩)
    · exact HasFormat.decode_eq (i := .reserved) hop ▸ .reserved
    · exact HasFormat.decode_eq (i := .rti) hop ▸ .rti
    · exact HasFormat.decode_eq (i := .trap (field w 0 8)) ⟨hop, rfl⟩ ▸ .trap hnone
  · intro hraises
    have hformat : HasFormat w (decode w) := hasFormat_decode w
    generalize decode w = i at hraises hformat
    cases hraises with
    | reserved => exact .inl hformat
    | rti => exact .inr (.inl hformat)
    | trap hnone =>
      obtain ⟨hop, rfl⟩ := hformat
      exact .inr (.inr ⟨hop, hnone⟩)

/-- A handler can ask for no fault: the step that called it ends in Success or Halt (R102). -/
theorem State.trapRequest_reportsFault (h : HandlerId) (v : TrapVector) (s : State) :
    (s.trapRequest h v).reportsFault = false := by
  rw [State.reportsFault, State.trapRequest_result]
  cases (s.trapReply h v).outcome <;> rfl

/-- An instruction either raises the fault, and does nothing else, or reports none (R110, R112). -/
theorem raisesFault_cases (hexec : exec i s = .next t) (hs : s.reportsFault = false) :
    (RaisesFault s i ∧ t = s.raiseUnimplementedOpcode) ∨ (¬ RaisesFault s i ∧ t.reportsFault = false) := by
  cases i with
  | rti =>
    injection hexec with ht
    exact .inl ⟨.rti, ht.symm⟩
  | reserved =>
    injection hexec with ht
    exact .inl ⟨.reserved, ht.symm⟩
  | trap v =>
    cases hh : s.trapHandler v with
    | none =>
      injection (exec_trap_unregistered hh).symm.trans hexec with ht
      exact .inl ⟨.trap hh, ht.symm⟩
    | some h =>
      injection (exec_trap_registered hh).symm.trans hexec with ht
      have hnot : ¬ RaisesFault s (.trap v) := fun | .trap hnone => by simp [hh] at hnone
      exact .inr ⟨hnot, ht ▸ State.trapRequest_reportsFault h v s⟩
  | br | addReg | addImm | andReg | andImm | not | ld | ldi | ldr | lea | st | sti | str | jmp | jsr | jsrr =>
    injection hexec with ht
    exact .inr ⟨nofun, ht ▸ hs⟩

/-- The same of a step, which starts with Success for its result. -/
theorem fault_cases_of_step (hstep : step s = .next t) :
    (causesFault s.fetchWord s ∧ t = s.beginStep.raiseUnimplementedOpcode) ∨
    (¬ causesFault s.fetchWord s ∧ t.reportsFault = false) := by
  have hcauses : causesFault s.fetchWord s ↔ RaisesFault s.beginStep (decode s.fetchWord) :=
    causesFault_iff_raisesFault (s := s.beginStep)
  rw [hcauses]
  exact raisesFault_cases hstep rfl

/-! ### The statements -/

/-- Settles O37: a step with one of the causes raises the fault, whose record names the word fetched and its address,
and any other step reports none. -/
theorem faultExactlyOnTheThreeCauses : Obligations.FaultExactlyOnTheThreeCauses := by
  intro s t hstep
  obtain ⟨hcause, rfl⟩ | ⟨hcause, hreports⟩ := fault_cases_of_step hstep
  · exact ⟨iff_of_true rfl hcause, fun _ => State.beginStep_faultRecord s⟩
  · simp [hcause, hreports]

/-- Settles O38: the advance and the record are all that a fault leaves behind. -/
theorem faultedStepMovesOnlyThePc : Obligations.FaultedStepMovesOnlyThePc := by
  intro s t hstep hreports
  obtain ⟨-, rfl⟩ | ⟨-, hnone⟩ := fault_cases_of_step hstep
  · rfl
  · simp [hnone] at hreports

end Sys2Proof.Machine
end

section
/-! PROOFS. The host port (spec 70_reset_and_hazards.md): the accessors, `load`, the registration of a trap handler, and
that each of them keeps the invariant. -/

namespace Sys2Proof.Machine

/-! ### Numbers as indices, addresses and values (R142, R143) -/

/-- A number stands for the bit vector it is congruent to. -/
theorem ofNat_eq_of_toNat_eq_mod {w n : Nat} {x : BitVec w} (h : x.toNat = n % 2 ^ w) : BitVec.ofNat w n = x :=
  BitVec.eq_of_toNat_eq ((BitVec.toNat_ofNat n w).trans h.symm)

theorem ofNat_ne_of_mod_ne {w m n : Nat} (h : m % 2 ^ w ≠ n % 2 ^ w) : BitVec.ofNat w n ≠ BitVec.ofNat w m := by
  intro heq
  have hnat := congrArg BitVec.toNat heq
  rw [BitVec.toNat_ofNat, BitVec.toNat_ofNat] at hnat
  exact h hnat.symm

/-! ### The three writes of the host (R143) -/

theorem State.writeReg_hostWrote (r : RegIndex) (v : Word) (s : State) : hostWrote [r] [] s (s.writeReg r v) := by
  refine ⟨?otherRegs, fun _ _ => rfl, rfl, ⟨rfl, rfl, rfl⟩, rfl⟩
  intro q hq
  have hne : q ≠ r := fun h => hq (List.mem_singleton.mpr h)
  rw [State.readReg_writeReg, if_neg hne]

theorem State.writeMem_hostWrote (a v : Word) (s : State) : hostWrote [] [a] s (s.writeMem a v) := by
  refine ⟨fun _ _ => rfl, ?otherCells, rfl, ⟨rfl, rfl, rfl⟩, rfl⟩
  intro b hb
  have hne : b ≠ a := fun h => hb (List.mem_singleton.mpr h)
  rw [State.readMem_writeMem, if_neg hne]

theorem State.setPc_hostWrote (target : Word) (s : State) : hostWrote [] [] s (s.setPc target) :=
  ⟨fun _ _ => rfl, fun _ _ => rfl, rfl, ⟨rfl, rfl, rfl⟩, rfl⟩

/-! ### `load` (R134) -/

theorem load_cons (start w : Word) (rest : List Word) (s : State) :
    load start (w :: rest) s = load (start + 1) rest (s.writeMem start w) := rfl

/-- The address of a word of the block, counted from the block's second word and from its first. -/
theorem add_one_add_ofNat (start : Word) (i : Nat) :
    start + 1 + BitVec.ofNat 16 i = start + BitVec.ofNat 16 (i + 1) := by
  rw [BitVec.add_assoc, BitVec.add_comm 1, BitVec.ofNat_add]
  rfl

/-- What `load` cannot change: all of the state but memory. -/
theorem load_eq_withMem (start : Word) (words : List Word) (s : State) :
    load start words s = { s with mem := (load start words s).mem } := by
  induction words generalizing start s with
  | nil => rfl
  | cons w rest ih => exact ih (start + 1) (s.writeMem start w)

theorem load_readMem_outside (start : Word) (words : List Word) (s : State) (a : Word)
    (h : ∀ i, i < words.length → a ≠ start + BitVec.ofNat 16 i) :
    (load start words s).readMem a = s.readMem a := by
  induction words generalizing start s with
  | nil => rfl
  | cons w rest ih =>
    have hfirst : a ≠ start := by simpa using h 0 (by simp)
    have hrest : ∀ i, i < rest.length → a ≠ start + 1 + BitVec.ofNat 16 i := by
      intro i hi
      rw [add_one_add_ofNat]
      exact h (i + 1) (by simpa using hi)
    rw [load_cons, ih _ _ hrest, State.readMem_writeMem, if_neg hfirst]

/-- A word of the block stands at its address unless a later one falls on it, a whole number of rounds further on. -/
theorem load_readMem_word (start : Word) (words : List Word) (s : State) (i : Nat) (h : i < words.length)
    (hlater : ∀ j, i < j → j < words.length → j % 65536 ≠ i % 65536) :
    (load start words s).readMem (start + BitVec.ofNat 16 i) = words[i] := by
  induction words generalizing start s i with
  | nil => simp at h
  | cons w rest ih =>
    cases i with
    | zero =>
      have hrest : ∀ j, j < rest.length → start ≠ start + 1 + BitVec.ofNat 16 j := by
        intro j hj heq
        have hmod := hlater (j + 1) (by omega) (by simpa using hj)
        have hne : BitVec.ofNat 16 (j + 1) ≠ BitVec.ofNat 16 0 := ofNat_ne_of_mod_ne hmod.symm
        rw [add_one_add_ofNat] at heq
        exact hne (BitVec.self_eq_add_right.mp heq)
      rw [load_cons, BitVec.add_zero, load_readMem_outside _ _ _ _ hrest, State.readMem_writeMem, if_pos rfl]
      rfl
    | succ i =>
      rw [load_cons, ← add_one_add_ofNat]
      apply ih
      intro j hij hj
      have hmod := hlater (j + 1) (by omega) (by simpa using hj)
      omega

theorem load_inv (start : Word) (words : List Word) {s : State} (h : s.Inv) : (load start words s).Inv := by
  induction words generalizing start s with
  | nil => exact h
  | cons w rest ih =>
    obtain ⟨hmem, hreg, hcc⟩ := h
    exact ih (start + 1) ⟨Memory.wf_write hmem start w, hreg, hcc⟩

/-! ### The registration of a trap handler (R144) -/

theorem registerTrapHandler_trapHandler (v : TrapVector) (h : HandlerId) (s : State) (u : TrapVector) :
    (registerTrapHandler v h s).trapHandler u = if u = v then some h else s.trapHandler u := by
  have huv : u.toNat = v.toNat ↔ u = v := BitVec.toNat_inj
  simp only [State.trapHandler, registerTrapHandler, Sparse.lookup_put, huv]

/-- No instruction but TRAP consults the registry: it makes no difference whether a handler is registered before it or
after it. -/
theorem exec_registerTrapHandler (i : Instr) (v : TrapVector) (h : HandlerId) (s : State) (htrap : ∀ u, i ≠ .trap u) :
    ∃ t, exec i s = .next t ∧ exec i (registerTrapHandler v h s) = .next (registerTrapHandler v h t) := by
  cases i with
  | trap u => exact absurd rfl (htrap u)
  | addReg | addImm | andReg | andImm | not | ld | ldi | ldr | lea => exact ⟨_, rfl, rfl⟩
  | st | sti | str | br | jmp | jsr | jsrr | rti | reserved => exact ⟨_, rfl, rfl⟩

/-! ### The statements -/

/-- Settles O54: by induction on the words; each is written at the start address, and the others follow from the address
after it. -/
theorem loadWritesTheBlockWrappingAround : Obligations.LoadWritesTheBlockWrappingAround := by
  intro start words s
  refine ⟨load_readMem_word start words s, load_readMem_outside start words s, ?_⟩
  rw [load_eq_withMem]
  exact ⟨fun _ _ => rfl, rfl, rfl, rfl, rfl, rfl⟩

/-- Settles O56: the registry finds what was put there, and no other instruction than TRAP reads it. -/
theorem registrationBindsOneVectorForTrapAlone : Obligations.RegistrationBindsOneVectorForTrapAlone := by
  intro v h s
  refine ⟨?bound, ?others, rfl, ?trapAlone⟩
  case bound => rw [registerTrapHandler_trapHandler, if_pos rfl]
  case others =>
    intro u hu
    rw [registerTrapHandler_trapHandler, if_neg hu]
  case trapAlone => exact exec_registerTrapHandler (decode s.fetchWord) v h s.beginStep

/-- Settles O55: the number given is congruent to one index, address or value, and the write goes there. -/
theorem accessorsReadAndWriteOnePlace : Obligations.AccessorsReadAndWriteOnePlace := by
  intro s
  refine ⟨?getReg, ?getMem, rfl, rfl, ?setReg, ?otherReg, ?setMem, ?otherMem, ?setPc⟩
  case getReg =>
    intro i r hr
    rw [getRegister, ofNat_eq_of_toNat_eq_mod hr]
  case getMem =>
    intro n a ha
    rw [getMemory, ofNat_eq_of_toNat_eq_mod ha]
  case setReg =>
    intro i v r x hr hx
    rw [setRegister, getRegister, ofNat_eq_of_toNat_eq_mod hr, ofNat_eq_of_toNat_eq_mod hx]
    have hread : (s.writeReg r x).readReg r = x := by rw [State.readReg_writeReg, if_pos rfl]
    exact ⟨State.writeReg_hostWrote r x s, hread, hread, rfl⟩
  case otherReg =>
    intro i j v hij
    have hne : BitVec.ofNat 3 j ≠ BitVec.ofNat 3 i := ofNat_ne_of_mod_ne hij
    rw [setRegister, getRegister, State.readReg_writeReg, if_neg hne, getRegister]
  case setMem =>
    intro n v a x ha hx
    rw [setMemory, getMemory, ofNat_eq_of_toNat_eq_mod ha, ofNat_eq_of_toNat_eq_mod hx]
    have hread : (s.writeMem a x).readMem a = x := by rw [State.readMem_writeMem, if_pos rfl]
    exact ⟨State.writeMem_hostWrote a x s, hread, hread, rfl⟩
  case otherMem =>
    intro m n v hmn
    have hne : BitVec.ofNat 16 n ≠ BitVec.ofNat 16 m := ofNat_ne_of_mod_ne hmn
    rw [setMemory, getMemory, State.readMem_writeMem, if_neg hne, getMemory]
  case setPc =>
    intro v x hx
    exact ⟨State.setPc_hostWrote _ s, ofNat_eq_of_toNat_eq_mod hx⟩

end Sys2Proof.Machine
end

section
/-! PROOFS. `run` (R139 to R141): what one round of its loop does, and from it the steps a run performs, its end, and
the fault it keeps. -/

namespace Sys2Proof.Machine

variable {s t : State} {budget m : Nat} {last l : Option Fault} {e : RunEnd}

/-! ### Steps one after the other -/

@[simp] theorem nextState_config (s : State) : (nextState s).config = s.config := by
  obtain ⟨-, hconfig⟩ := (effect_nextState s).registry_config
  exact hconfig

theorem nextState_inv (h : s.Inv) : (nextState s).Inv := by
  have hbegin : s.beginStep.Inv := h
  exact (effect_nextState s).inv hbegin

theorem afterSteps_inv (k : Nat) (h : s.Inv) : (afterSteps k s).Inv := by
  induction k generalizing s with
  | zero => exact h
  | succ k ih => exact ih (nextState_inv h)

/-! ### The rounds of the loop -/

/-- A run whose parameters are `c` goes on after a step that led to `t` (R139, R140). -/
def goesOnAfter (c : Config) (t : State) : Prop :=
  t.output.result ≠ .halt ∧ (t.reportsFault = true → c.continueOnFault = true)

/-- The last fault seen, after one more step, which led to `t`. -/
def State.faultOr (t : State) (last : Option Fault) : Option Fault :=
  match t.output.result with
  | .fault f => some f
  | .success => last
  | .halt => last

/-- The run from `s` with a budget and the last fault seen so far performs `m` steps, ends with `e` and leaves `t`: the
loop of R139 as a relation, one constructor for each way through a round. It is what `run` computes (`run_runsTo`). -/
inductive RunsTo : (budget : Nat) → (last : Option Fault) → (s : State) → (m : Nat) → (e : RunEnd) → (t : State) → Prop
  | exhausted {last : Option Fault} {s : State} : RunsTo 0 last s 0 (.budgetExhausted last) s
  | halted {budget : Nat} {last : Option Fault} {s : State} (hresult : (nextState s).output.result = .halt) :
      RunsTo (budget + 1) last s 1 .halted (nextState s)
  | faulted {budget : Nat} {last : Option Fault} {s : State} {f : Fault}
      (hresult : (nextState s).output.result = .fault f) (hconfig : s.config.continueOnFault = false) :
      RunsTo (budget + 1) last s 1 (.faulted f) (nextState s)
  | goesOn {budget : Nat} {last : Option Fault} {s : State} {m : Nat} {e : RunEnd} {t : State}
      (hpass : goesOnAfter s.config (nextState s))
      (hrest : RunsTo budget ((nextState s).faultOr last) (nextState s) m e t) :
      RunsTo (budget + 1) last s (m + 1) e t

/-- The loop computes the relation; its counter only shifts the number of steps. -/
theorem runLoop_runsTo (budget n : Nat) (last : Option Fault) (s : State) :
    ∃ m e t, runLoop budget n last s = { steps := n + m, ending := e, final := t } ∧ RunsTo budget last s m e t := by
  induction budget generalizing n last s with
  | zero => exact ⟨0, _, s, rfl, .exhausted⟩
  | succ budget ih =>
    have hround (hpass : goesOnAfter s.config (nextState s)) :
        ∃ m e t, runLoop budget (n + 1) ((nextState s).faultOr last) (nextState s) =
          { steps := n + m, ending := e, final := t } ∧ RunsTo (budget + 1) last s m e t := by
      obtain ⟨m, e, t, hloop, hruns⟩ := ih (n + 1) ((nextState s).faultOr last) (nextState s)
      exact ⟨m + 1, e, t, by rw [hloop, Nat.add_assoc, Nat.add_comm 1], .goesOn hpass hruns⟩
    cases hresult : (nextState s).output.result with
    | halt => exact ⟨1, .halted, nextState s, by simp [runLoop, hresult], .halted hresult⟩
    | success =>
      have hpass : goesOnAfter s.config (nextState s) := by simp [goesOnAfter, State.reportsFault, hresult]
      simpa [runLoop, State.faultOr, hresult] using hround hpass
    | fault f =>
      cases hconfig : s.config.continueOnFault with
      | false => exact ⟨1, .faulted f, nextState s, by simp [runLoop, hresult, hconfig], .faulted hresult hconfig⟩
      | true =>
        have hpass : goesOnAfter s.config (nextState s) := by simp [goesOnAfter, hresult, hconfig]
        simpa [runLoop, State.faultOr, hresult, hconfig] using hround hpass

theorem run_runsTo (n : BitVec 32) (s : State) :
    RunsTo n.toNat none s (run n s).steps (run n s).ending (run n s).final := by
  obtain ⟨m, e, t, hloop, hruns⟩ := runLoop_runsTo n.toNat 0 none s
  rw [run, hloop, Nat.zero_add]
  exact hruns

/-! ### The steps of a run -/

theorem RunsTo.final_eq (h : RunsTo budget last s m e t) : t = afterSteps m s := by
  induction h with
  | exhausted | halted | faulted => rfl
  | goesOn _ _ ih => exact ih

theorem RunsTo.steps_le (h : RunsTo budget last s m e t) : m ≤ budget := by
  induction h with
  | exhausted | halted | faulted => omega
  | goesOn _ _ ih => omega

/-- A run goes on after each of its steps but the last. -/
theorem RunsTo.goesOn_before (h : RunsTo budget last s m e t) {k : Nat} (hpos : 0 < k) (hk : k < m) :
    goesOnAfter s.config (afterSteps k s) := by
  induction h generalizing k with
  | exhausted | halted | faulted => omega
  | @goesOn _ _ s _ _ _ hpass _ ih =>
    obtain ⟨k, rfl⟩ := Nat.exists_eq_succ_of_ne_zero hpos.ne'
    obtain rfl | hk0 := Nat.eq_zero_or_pos k
    · exact hpass
    · exact nextState_config s ▸ ih hk0 (Nat.lt_of_succ_lt_succ hk)

/-! ### The end of a run -/

/-- What the end of a run says of its last step, which led to `t` (R139 to R141, D18). -/
def RunEnd.fits (c : Config) (budget m : Nat) (t : State) : RunEnd → Prop
  | .halted => 0 < m ∧ t.output.result = .halt
  | .faulted f => 0 < m ∧ t.output.result = .fault f ∧ c.continueOnFault = false
  | .budgetExhausted _ => m = budget ∧ (0 < budget → goesOnAfter c t)

theorem RunsTo.end_fits (h : RunsTo budget last s m e t) : e.fits s.config budget m t := by
  induction h with
  | exhausted => exact ⟨rfl, fun hpos => absurd hpos (lt_irrefl 0)⟩
  | halted hresult => exact ⟨Nat.one_pos, hresult⟩
  | faulted hresult hconfig => exact ⟨Nat.one_pos, hresult, hconfig⟩
  | @goesOn budget _ s m e t hpass hrest ih =>
    rw [nextState_config] at ih
    cases e with
    | halted | faulted =>
      obtain ⟨-, hlast⟩ := ih
      exact ⟨Nat.succ_pos m, hlast⟩
    | budgetExhausted =>
      obtain ⟨rfl, hlast⟩ := ih
      refine ⟨rfl, fun _ => ?_⟩
      cases hrest with
      | exhausted => exact hpass
      | goesOn => exact hlast (Nat.succ_pos _)

/-! ### The last fault of a run -/

/-- No step after the first `k`, up to step `budget`, reports a fault. -/
def noFaultAfter (k budget : Nat) (s : State) : Prop :=
  ∀ j, k < j → j ≤ budget → (afterSteps j s).reportsFault = false

theorem noFaultAfter_succ {k : Nat} (h : noFaultAfter k budget (nextState s)) :
    noFaultAfter (k + 1) (budget + 1) s := by
  intro j hkj hj
  obtain ⟨j, rfl⟩ := Nat.exists_eq_succ_of_ne_zero (Nat.ne_zero_of_lt hkj)
  exact h j (Nat.lt_of_succ_lt_succ hkj) (Nat.le_of_succ_le_succ hj)

theorem noFaultAfter_zero (hfirst : (nextState s).reportsFault = false)
    (hrest : noFaultAfter 0 budget (nextState s)) : noFaultAfter 0 (budget + 1) s := by
  intro j hpos hj
  obtain rfl | hlt := (Nat.succ_le_of_lt hpos).eq_or_lt
  · exact hfirst
  · exact noFaultAfter_succ hrest j hlt hj

/-- Step `k`, within the budget, reports the fault `f`, and no later one reports any. -/
def lastFaultAt (k budget : Nat) (f : Fault) (s : State) : Prop :=
  0 < k ∧ k ≤ budget ∧ (afterSteps k s).output.result = .fault f ∧ noFaultAfter k budget s

theorem lastFaultAt_succ {k : Nat} {f : Fault} (h : lastFaultAt k budget f (nextState s)) :
    lastFaultAt (k + 1) (budget + 1) f s := by
  obtain ⟨-, hk, hresult, hquiet⟩ := h
  exact ⟨Nat.succ_pos k, Nat.succ_le_succ hk, hresult, noFaultAfter_succ hquiet⟩

theorem lastFaultAt_one {f : Fault} (hresult : (nextState s).output.result = .fault f)
    (hrest : noFaultAfter 0 budget (nextState s)) : lastFaultAt 1 (budget + 1) f s :=
  ⟨Nat.one_pos, Nat.succ_pos budget, hresult, noFaultAfter_succ hrest⟩

/-- A run that used its budget reports the fault seen before it when its steps report none, and else their last. -/
theorem RunsTo.lastFault (h : RunsTo budget last s m e t) (he : e = .budgetExhausted l) :
    (l = last ∧ noFaultAfter 0 budget s) ∨ ∃ k f, l = some f ∧ lastFaultAt k budget f s := by
  induction h with
  | halted | faulted => cases he
  | exhausted =>
    cases he
    exact .inl ⟨rfl, fun j hpos hj => absurd hj hpos.not_ge⟩
  | @goesOn budget last s _ _ _ _ _ ih =>
    obtain ⟨hl, hquiet⟩ | ⟨k, f, hl, hfault⟩ := ih he
    · rw [State.faultOr] at hl
      cases hresult : (nextState s).output.result with
      | fault f =>
        rw [hresult] at hl
        exact .inr ⟨1, f, hl, lastFaultAt_one hresult hquiet⟩
      | success | halt =>
        rw [hresult] at hl
        have hfirst : (nextState s).reportsFault = false := by rw [State.reportsFault, hresult]
        exact .inl ⟨hl, noFaultAfter_zero hfirst hquiet⟩
    · exact .inr ⟨k + 1, f, hl, lastFaultAt_succ hfault⟩

/-! ### The statements -/

/-- Settles O57: the steps, their number and the end are those of the relation `run` computes. -/
theorem runIsTheStepsItPerforms : Obligations.RunIsTheStepsItPerforms := by
  intro n s
  have hruns := run_runsTo n s
  refine ⟨hruns.final_eq, hruns.steps_le, ?_⟩
  have hfits := hruns.end_fits
  cases hend : (run n s).ending with
  | halted | faulted | budgetExhausted =>
    rw [hend] at hfits
    exact hfits

/-- Settles O58: only the last step of a run can stop it. -/
theorem runStopsAtTheFirstHaltOrFault : Obligations.RunStopsAtTheFirstHaltOrFault := by
  intro n s k hpos hk
  exact (run_runsTo n s).goesOn_before hpos hk

/-- Settles O59: a run starts with no fault seen. -/
theorem exhaustedRunKeepsTheLastFault : Obligations.ExhaustedRunKeepsTheLastFault := by
  intro n s
  constructor
  · intro f hend
    obtain ⟨hnone, -⟩ | ⟨k, g, hg, hfault⟩ := (run_runsTo n s).lastFault hend
    · cases hnone
    · cases hg
      exact ⟨k, hfault⟩
  · intro hend
    obtain ⟨-, hquiet⟩ | ⟨k, g, hg, -⟩ := (run_runsTo n s).lastFault hend
    · exact hquiet
    · cases hg

/-- Settles O52: a write to memory or to the registry keeps its canonical form, a write to a register or to the PC
touches nothing the invariant speaks of, and `run` is a number of steps. -/
theorem hostOperationsKeepTheInvariant : Obligations.HostOperationsKeepTheInvariant := by
  intro s hinv
  have ⟨hmem, hreg, hcc⟩ := hinv
  refine ⟨fun _ _ => hinv, ?setMem, fun _ => hinv, fun a ws => load_inv a ws hinv, ?register, ?run⟩
  case setMem => exact fun _ _ => ⟨Memory.wf_write hmem _ _, hreg, hcc⟩
  case register => exact fun v h => ⟨hmem, Registry.wf_put hreg v h, hcc⟩
  case run =>
    intro n
    rw [(run_runsTo n s).final_eq]
    exact afterSteps_inv _ hinv

end Sys2Proof.Machine
end
